-- ==== Sys2Proof/Config.lean ====
section
/-! DEFINITION. The parameters the spec fixes for this hardware (00_scope.md R8), its one open parameter, and the
free values of the output ports the spec leaves UNSPECIFIED on a fault (60_exceptions.md R108). -/

namespace Sys2Proof.Config

/-- R8 `BYTE_W`: bits per input byte. -/
def byteW : Nat := 8
/-- R8 `N_IN_BYTES`: bytes consumed by one decode. -/
def nInBytes : Nat := 2
/-- R8 `OPC_W`: bits of the opcode pattern. -/
def opcW : Nat := 5
/-- R8 `MOD_W`: bits of the addressing mode. -/
def modW : Nat := 2
/-- R8 `CODE_W`: bits of a register field. -/
def codeW : Nat := 3
/-- R8 `N_TABLE`: entries of each code-to-register table. -/
def nTable : Nat := 8
/-- R8 `N_REGS`: named registers. -/
def nRegs : Nat := 16
/-- R8 `REGID_W`: bits of a register identifier. -/
def regIdW : Nat := 4
/-- R8 `NAME_CHARS`: characters of a display name. -/
def nameChars : Nat := 2
/-- R8 `NAME_W`: bits of a name-ROM word. -/
def nameW : Nat := 16
/-- R8 `CAUSE_W`: bits of the cause output. -/
def causeW : Nat := 2

/-- R8 and R123 `T_SETTLE`, an OPEN parameter: the settle time. No rule depends on it and the untimed model
does not use it (log entry 9). -/
opaque tSettle : Nat

/-- What `dst_id` carries when `ok = 0`: UNSPECIFIED (R108). A free value, a function of the two input bytes
because every output is one (R20); nothing constrains it (log entry 5). -/
opaque unspecifiedDstId : BitVec 8 → BitVec 8 → BitVec 4
/-- What `src_id` carries when `ok = 0` (R108): a free value (log entry 5). -/
opaque unspecifiedSrcId : BitVec 8 → BitVec 8 → BitVec 4
/-- What `dst_name` carries when `ok = 0` (R93, R108): a free value of its own (log entry 5). -/
opaque unspecifiedDstName : BitVec 8 → BitVec 8 → BitVec 16
/-- What `src_name` carries when `ok = 0` (R93, R108): a free value of its own (log entry 5). -/
opaque unspecifiedSrcName : BitVec 8 → BitVec 8 → BitVec 16

end Sys2Proof.Config
end

