-- ==== Sys2Proof/Word.lean ====
section
/-! DEFINITION. The bit-vector types of the ports and fields (00_scope.md R8 and R9). Every value is unsigned and
the block does no arithmetic (R10), so this file holds no operation. Each width is the parameter of Config it names. -/

namespace Sys2Proof

/-- An input byte, `b0` or `b1` (R21), `BYTE_W` bits. -/
abbrev Byte := BitVec 8
/-- A register code, the `reg` or `rm` field (R55), `CODE_W` bits. -/
abbrev Code := BitVec 3
/-- A register identifier on a port, `{w, code}` (R24), `REGID_W` bits. -/
abbrev RegId := BitVec 4
/-- A word of the name ROM: two 8-bit character codes (R75), `NAME_W` bits. -/
abbrev NameWord := BitVec 16
/-- The level of the `cause` output (R22), `CAUSE_W` bits. -/
abbrev CauseCode := BitVec 2
/-- The 16-bit word `W = {b0, b1}` of the opcode table (R68). -/
abbrev TableWord := BitVec 16

end Sys2Proof
end

