-- ==== Sys2Proof/Syntax.lean ====
section
/-! DEFINITION. The names of the instruction set: registers, width classes, fault causes, the result of a decode,
the four instruction forms, and the contract violations that hardware wires rule out. -/

namespace Sys2Proof

/-- The width selector `w`: byte (0) or word (1) (30_encoding.md R60). -/
inductive Width where
  | byte | word
  deriving DecidableEq, Repr

/-- The closed enumeration of 16 registers, in the document's order (10_state.md R23, R24). They are names only:
no register holds contents, and nothing is said of shared storage (R26, R27). -/
inductive Register where
  | al | cl | dl | bl | ah | ch | dh | bh
  | ax | cx | dx | bx | sp | bp | si | di
  deriving DecidableEq, Repr

/-- The fault causes (60_exceptions.md R101 to R103). Code 0, NONE, is no fault and no cause. -/
inductive Cause where
  /-- R101: `b0[7:3]` is not the MOV pattern. -/
  | opcodeClass
  /-- R102: the class holds and `b1[7:6]` is not register mode. -/
  | addrMode
  /-- R103: the buffer holds fewer than two bytes; raised by the front end only. -/
  | shortInput
  deriving DecidableEq, Repr

/-- The result of a decode (00_scope.md R12): the ordered operand pair, or a fault with its cause and no
register. -/
inductive Result where
  | ok (dst src : Register)
  | fault (cause : Cause)
  deriving DecidableEq, Repr

/-- The arguments a sub-function refuses when its argument type is wider than the hardware's wires (R73, R80,
R104, R105). The wires rule them out, so no step raises one. -/
inductive ContractViolation where
  /-- R104: a bit position of 8 or more. -/
  | bitIndexOutOfRange
  /-- R105: a register code of 8 or more. -/
  | codeOutOfRange
  /-- R105: a width selector outside 0 and 1. -/
  | widthOutOfRange
  deriving DecidableEq, Repr

/-- The four accepted forms, one for each row of opcode_table.json (R63), operands written destination first.
Bit 2 of `b0` is read by no function (R57), so no form holds it. -/
inductive Instr where
  /-- MOV r/m8, r8 (d = 0, w = 0), R88. -/
  | movRm8R8 (rm reg : Register)
  /-- MOV r8, r/m8 (d = 1, w = 0), R89. -/
  | movR8Rm8 (reg rm : Register)
  /-- MOV r/m16, r16 (d = 0, w = 1), R90. -/
  | movRm16R16 (rm reg : Register)
  /-- MOV r16, r/m16 (d = 1, w = 1), R91. -/
  | movR16Rm16 (reg rm : Register)
  deriving DecidableEq, Repr

end Sys2Proof
end

