-- ==== Sys2Proof/Machine/RegisterModel.lean ====
section
/-! DEFINITION. The Register Model, the leaf sub-block (40_register_model.md): the two code-to-register tables, the
identifier encoding and the display-name ROM. All of it is constant (R79). -/

namespace Sys2Proof.Machine

/-- `REG[0]`, the byte table (R70). -/
def byteTable : Vector Register 8 :=
  #v[.al, .cl, .dl, .bl, .ah, .ch, .dh, .bh]

/-- `REG[1]`, the word table (R71). -/
def wordTable : Vector Register 8 :=
  #v[.ax, .cx, .dx, .bx, .sp, .bp, .si, .di]

/-- `REG[w]` (R72): the width selects the table. -/
def regTable : Width → Vector Register 8
  | .byte => byteTable
  | .word => wordTable

/-- `decode(code, width) = REG[width][code]` on the hardware's 3-bit and 1-bit wires (R72): total. -/
def regLookup (code : Code) (w : Width) : Register :=
  (regTable w).get code.toFin

/-- `decode(code, width)` on natural numbers (R73, R105): a code of 8 or more and a width outside 0 and 1 are
refused, never wrapped. Where both arguments are out of range the spec gives no order: that the code is the one
reported is the model's choice (DESIGN CHOICE, log entry 19). -/
def regLookupNat (code width : Nat) : Except ContractViolation Register :=
  if hc : code < 8 then
    match width with
    | 0 => .ok (regLookup (BitVec.ofNatLT code hc) .byte)
    | 1 => .ok (regLookup (BitVec.ofNatLT code hc) .word)
    | _ => .error .widthOutOfRange
  else .error .codeOutOfRange

/-- The width bit of a width class: 0 for byte, 1 for word (R24, R60). -/
def widthBit : Width → Bool
  | .byte => false
  | .word => true

/-- The width class a width bit selects (R60). -/
def widthOfBit (w : Bool) : Width :=
  if w then .word else .byte

/-- The identifier of a register, `RegId = {w, code}`, in the order of R24's table. -/
def regIdOf : Register → RegId
  | .al => 0#4 | .cl => 1#4 | .dl => 2#4 | .bl => 3#4 | .ah => 4#4 | .ch => 5#4 | .dh => 6#4 | .bh => 7#4
  | .ax => 8#4 | .cx => 9#4 | .dx => 10#4 | .bx => 11#4 | .sp => 12#4 | .bp => 13#4 | .si => 14#4 | .di => 15#4

/-- The width class of a register, bit 3 of its identifier (R25). -/
def widthOf (r : Register) : Width :=
  widthOfBit ((regIdOf r).getLsbD 3)

/-- The bits of a width class: byte width is 8 bits and word width 16 (10_state.md R23). -/
def bitsOfWidth : Width → Nat
  | .byte => 8
  | .word => 16

/-- The width of a register in bits (R23): a property of its name, since no register holds contents (R27). -/
def registerBits (r : Register) : Nat :=
  bitsOfWidth (widthOf r)

/-- The 3-bit code of a register, the low bits of its identifier (R24). -/
def codeOf (r : Register) : Code :=
  (regIdOf r).extractLsb' 0 3

/-- The display names in identifier order (R74). -/
def nameTable : Vector String 16 :=
  #v["al", "cl", "dl", "bl", "ah", "ch", "dh", "bh", "ax", "cx", "dx", "bx", "sp", "bp", "si", "di"]

/-- `NAME[id]` as text (R74). -/
def nameText (id : RegId) : String :=
  nameTable.get id.toFin

/-- The name ROM's words in identifier order: two ASCII codes, the first character in bits 15:8 (R75). -/
def nameRom : Vector NameWord 16 :=
  #v[0x616C#16, 0x636C#16, 0x646C#16, 0x626C#16, 0x6168#16, 0x6368#16, 0x6468#16, 0x6268#16,
     0x6178#16, 0x6378#16, 0x6478#16, 0x6278#16, 0x7370#16, 0x6270#16, 0x7369#16, 0x6469#16]

/-- `NAME[id]` as a ROM word, read through one of the two combinational ports (R75, R78). -/
def nameWord (id : RegId) : NameWord :=
  nameRom.get id.toFin

/-- `display_name` of a register (R74). -/
def displayName (r : Register) : String :=
  nameText (regIdOf r)

/-- The word R75 gives a two-character name: `{first, second}`, each as its 8-bit code. -/
def wordOfName (name : String) : Option NameWord :=
  match name.toList with
  | [a, b] => some (BitVec.ofNat 8 a.toNat ++ BitVec.ofNat 8 b.toNat)
  | _ => none

end Sys2Proof.Machine
end

