-- ==== Sys2Proof/WellFormed.lean ====
section
/-! DEFINITION. Well-formed instructions: both operands of a form come from the one table its width selects
(10_state.md R25, 30_encoding.md R60). -/

namespace Sys2Proof

/-- Both operands of the width class the form looks them up with (R25). -/
def Instr.wellFormed : Instr → Bool
  | .movRm8R8 rm reg => Machine.widthOf rm == .byte && Machine.widthOf reg == .byte
  | .movR8Rm8 reg rm => Machine.widthOf reg == .byte && Machine.widthOf rm == .byte
  | .movRm16R16 rm reg => Machine.widthOf rm == .word && Machine.widthOf reg == .word
  | .movR16Rm16 reg rm => Machine.widthOf reg == .word && Machine.widthOf rm == .word

/-- The instruction's operands come from its own width's table. -/
abbrev Instr.WellFormed (i : Instr) : Prop := i.wellFormed = true

end Sys2Proof
end

