-- ==== Sys2Proof/Decode.lean ====
section
/-! DEFINITION. Field extraction and the sub-functions of 41_instruction_decoder.md R80 to R84, the decoder from two
bytes to an instruction or the cause that rejects them, the encoder, and the rows of the opcode table. -/

namespace Sys2Proof

/-- `extract_bit(byte, p)` with a free position (R80): a position of 8 or more is refused (R104). -/
def extractBit (b : Byte) (p : Nat) : Except ContractViolation Bool :=
  if p < 8 then .ok (b.getLsbD p) else .error .bitIndexOutOfRange

/-- `opcode = b0[7:3]` (R54). -/
def opcodeField (b0 : Byte) : BitVec 5 := b0.extractLsb' 3 5
/-- `d = b0[1]`, `extract_bit` at its constant position (R59, R80). -/
def dField (b0 : Byte) : Bool := b0.getLsbD 1
/-- `w = b0[0]`, `extract_bit` at its constant position (R60, R80). -/
def wField (b0 : Byte) : Bool := b0.getLsbD 0
/-- `mod = b1[7:6]` (R55). -/
def modField (b1 : Byte) : BitVec 2 := b1.extractLsb' 6 2
/-- `reg = b1[5:3]` (R55). -/
def regField (b1 : Byte) : Code := b1.extractLsb' 3 3
/-- `rm = b1[2:0]` (R55). -/
def rmField (b1 : Byte) : Code := b1.extractLsb' 0 3

/-- R8 `OPC_MOV`, the hardwired opcode pattern (R56). -/
def opcMov : BitVec 5 := 0b10001#5
/-- R8 `MOD_REG`, the hardwired register mode (R58). -/
def modReg : BitVec 2 := 0b11#2

/-- `classify_opcode(b0)` (R81). -/
def classifyOpcode (b0 : Byte) : Bool := opcodeField b0 == opcMov
/-- `is_register_addressing_mode(b1)` (R82). -/
def isRegisterAddressingMode (b1 : Byte) : Bool := modField b1 == modReg
/-- `decode_reg_field(b1, w)` (R83). -/
def decodeRegField (b1 : Byte) (w : Width) : Register := Machine.regLookup (regField b1) w
/-- `decode_rm_field(b1, w)` (R84). -/
def decodeRmField (b1 : Byte) (w : Width) : Register := Machine.regLookup (rmField b1) w

/-- The form the direction and width bits select among the four of R63, over the two resolved operands. -/
def formOf (d : Bool) (w : Width) (reg rm : Register) : Instr :=
  match d, w with
  | false, .byte => .movRm8R8 rm reg
  | true, .byte => .movR8Rm8 reg rm
  | false, .word => .movRm16R16 rm reg
  | true, .word => .movR16Rm16 reg rm

/-- The decoder: total on every pair, and it rejects one by the cause's name, opcode class first (R64, R101, R102,
R106). -/
def decode (b0 b1 : Byte) : Except Cause Instr :=
  if classifyOpcode b0 then
    if isRegisterAddressingMode b1 then
      let w := Machine.widthOfBit (wField b0)
      .ok (formOf (dField b0) w (decodeRegField b1 w) (decodeRmField b1 w))
    else .error .addrMode
  else .error .opcodeClass

/-- Byte 0 from its fields, `10001xdw` (R54). -/
def opcodeByte (x d w : Bool) : Byte :=
  opcMov ++ BitVec.ofBool x ++ BitVec.ofBool d ++ BitVec.ofBool w

/-- Byte 1 from its fields, `11rrrmmm` (R55). -/
def addressingByte (reg rm : Code) : Byte :=
  modReg ++ reg ++ rm

/-- The pair that encodes an instruction with the ignored bit `b0[2]` at `x` (R57, R63). -/
def encodeWith (x : Bool) : Instr → Byte × Byte
  | .movRm8R8 rm reg => (opcodeByte x false false, addressingByte (Machine.codeOf reg) (Machine.codeOf rm))
  | .movR8Rm8 reg rm => (opcodeByte x true false, addressingByte (Machine.codeOf reg) (Machine.codeOf rm))
  | .movRm16R16 rm reg => (opcodeByte x false true, addressingByte (Machine.codeOf reg) (Machine.codeOf rm))
  | .movR16Rm16 reg rm => (opcodeByte x true true, addressingByte (Machine.codeOf reg) (Machine.codeOf rm))

/-- The encoder, the ignored bit at 0: R63's first byte of each form (log entry 8). -/
def encode (i : Instr) : Byte × Byte := encodeWith false i

/-- A row of opcode_table.json: it matches a word `W` when `W AND mask = match` (R68). -/
structure OpcodeRow where
  matchBits : TableWord
  mask : TableWord
  form : Register → Register → Instr

/-- The row matches the word (R68). -/
def OpcodeRow.covers (r : OpcodeRow) (W : TableWord) : Bool := W &&& r.mask == r.matchBits

/-- The four rows of opcode_table.json, in its order; `form` takes the reg and the rm operand. -/
def opcodeRows : List OpcodeRow :=
  [ ⟨0x88C0#16, 0xFBC0#16, fun reg rm => .movRm8R8 rm reg⟩,
    ⟨0x8AC0#16, 0xFBC0#16, fun reg rm => .movR8Rm8 reg rm⟩,
    ⟨0x89C0#16, 0xFBC0#16, fun reg rm => .movRm16R16 rm reg⟩,
    ⟨0x8BC0#16, 0xFBC0#16, fun reg rm => .movR16Rm16 reg rm⟩ ]

/-- `W = {b0, b1}` (R68). -/
def tableWord (b0 b1 : Byte) : TableWord := b0 ++ b1

/-- The two bytes of a table word in stream order: `b0` is bits 15:8 and comes first (R42, R68). Bits of `w` from
`nbits` up are no part of the word. -/
def tableBytes (nbits w : Nat) : Byte × Byte :=
  let W : TableWord := BitVec.ofNat 16 (w % 2 ^ nbits)
  (W.extractLsb' 8 8, W.extractLsb' 0 8)

/-- The instruction the decoder reads from a word of the opcode table: every accepted encoding is two bytes long
(R53), so a longer word is none. -/
def decodeTableWord (nbits w : Nat) : Option Instr :=
  if nbits ≤ 16 then
    match decode (tableBytes nbits w).1 (tableBytes nbits w).2 with
    | .ok i => some i
    | .error _ => none
  else none

end Sys2Proof
end

