-- ==== Sys2Proof/Machine/Operands.lean ====
section
/-! DEFINITION. The operands of a decode: ordering by the direction bit, and `decode_instruction`
(41_instruction_decoder.md R86) as the spec's pseudocode has it, from the two bytes to a result. -/

namespace Sys2Proof.Machine

/-- `(dst, src)` from the two operands (R59, R61): with `d = 1` the reg field is the destination. -/
def orderOperands (d : Bool) (reg rm : Register) : Register × Register :=
  if d then (reg, rm) else (rm, reg)

/-- `decode_instruction(b0, b1)` (R86). -/
def decodeInstruction (b0 b1 : Byte) : Result :=
  if !classifyOpcode b0 then .fault .opcodeClass
  else if !isRegisterAddressingMode b1 then .fault .addrMode
  else
    let w := widthOfBit (wField b0)
    let pair := orderOperands (dField b0) (decodeRegField b1 w) (decodeRmField b1 w)
    .ok pair.1 pair.2

end Sys2Proof.Machine
end

