-- ==== Sys2Proof/Machine/State.lean ====
section
/-! DEFINITION. What stands on the decoder's ports and at its two collaborators. The block itself holds no state
(10_state.md R20): no register contents, flags, program counter, memory or fault latch exist (R27 to R30, R40). -/

namespace Sys2Proof.Machine

/-- The levels of the 13 output ports (10_state.md R22), in its order. -/
structure Outputs where
  /-- `is_mov`, R81. -/
  isMov : Bool
  /-- `is_regmode`, R82. -/
  isRegmode : Bool
  /-- `d`, R59. -/
  d : Bool
  /-- `w`, R60. -/
  w : Bool
  /-- `reg_id`, R83. -/
  regId : RegId
  /-- `rm_id`, R84. -/
  rmId : RegId
  /-- `ok`, R86. -/
  ok : Bool
  /-- `fault`, R108. -/
  fault : Bool
  /-- `cause`, 0 when `ok = 1`, R101 to R106. -/
  cause : CauseCode
  /-- `dst_id`, R86; UNSPECIFIED when `ok = 0`. -/
  dstId : RegId
  /-- `src_id`, R86; UNSPECIFIED when `ok = 0`. -/
  srcId : RegId
  /-- `dst_name`, R93; UNSPECIFIED when `ok = 0`. -/
  dstName : NameWord
  /-- `src_name`, R93; UNSPECIFIED when `ok = 0`. -/
  srcName : NameWord
  deriving DecidableEq, Repr

/-- A state of the decoder with its front end and its host. -/
structure State where
  /-- The buffers the host will hand to the front end, oldest first; one decode consumes one (R41, R42; the queue is
  DESIGN CHOICE, log entry 1). -/
  pending : List (List Byte)
  /-- The pair `(b0, b1)` on the input ports (R21); none until the host presents one (R121). -/
  ports : Option (Byte × Byte)
  /-- The output levels sampled by the decode of that pair; no latch of the block (log entry 3). -/
  outputs : Option Outputs
  /-- The lines the host has rendered, oldest first (R95). -/
  printed : List String
  deriving DecidableEq, Repr

/-- Power-up (70_reset_and_hazards.md R120, R121): nothing is presented, so nothing is sampled or rendered
(DESIGN CHOICE, log entry 12). -/
def State.reset : State where
  pending := []
  ports := none
  outputs := none
  printed := []

/-- Why a run is aborted: the fault is fatal and terminal (60_exceptions.md R100, R109, R110), and it records only its
cause (R107). Each is the spec's own outcome, so stopping is faithful and safe. -/
inductive Fault where
  /-- Raised by a step whose `b0` is outside the MOV class (R101). Safe: no claim reaches past it. -/
  | opcodeClass
  /-- Raised by a step whose `b0` is in the class and whose `b1` is not register mode (R102). Safe. -/
  | addrMode
  /-- Raised by the front end on a buffer of fewer than two bytes (R103). Safe. -/
  | shortInput
  deriving DecidableEq, Repr

/-- Why an instruction has no meaning. -/
inductive Refusal where
  /-- An arm of `exec` without a meaning yet. Raised by no arm of this model; it would be safe. -/
  | notModelled (mnemonic : String)
  deriving DecidableEq, Repr

end Sys2Proof.Machine
end

