-- ==== Sys2Proof/Machine/Flags.lean ====
section
/-! DEFINITION. The output ports as functions of the input pair (10_state.md R22, 41_instruction_decoder.md R87,
60_exceptions.md R108). The decoder has no flags or condition codes (R29): the status outputs are the levels here,
driven afresh for every pair and stored nowhere in the block. -/

namespace Sys2Proof.Machine

/-- The cause codes of 60_exceptions.md section 2. -/
def causeCode : Cause → CauseCode
  | .opcodeClass => 1#2
  | .addrMode => 2#2
  | .shortInput => 3#2

/-- Code 0, NONE: no fault. -/
def causeNone : CauseCode := 0#2

/-- `cause` for the result of a decode (R22): 0 when it is `Ok`. -/
def causeOf : Result → CauseCode
  | .ok _ _ => causeNone
  | .fault c => causeCode c

/-- `ok`: 1 when the decode is `Ok` (R22). -/
def okOf : Result → Bool
  | .ok _ _ => true
  | .fault _ => false

/-- The output ports of the combinational block for the pair on its inputs (R22). The four result ports carry free
values when `ok = 0` (R108, log entry 5). -/
def outputsOf (b0 b1 : Byte) : Outputs :=
  let w := widthOfBit (wField b0)
  let result := decodeInstruction b0 b1
  { isMov := classifyOpcode b0
    isRegmode := isRegisterAddressingMode b1
    d := dField b0
    w := wField b0
    regId := regIdOf (decodeRegField b1 w)
    rmId := regIdOf (decodeRmField b1 w)
    ok := okOf result
    fault := !okOf result
    cause := causeOf result
    dstId := match result with
      | .ok dst _ => regIdOf dst
      | .fault _ => Config.unspecifiedDstId b0 b1
    srcId := match result with
      | .ok _ src => regIdOf src
      | .fault _ => Config.unspecifiedSrcId b0 b1
    dstName := match result with
      | .ok dst _ => nameWord (regIdOf dst)
      | .fault _ => Config.unspecifiedDstName b0 b1
    srcName := match result with
      | .ok _ src => nameWord (regIdOf src)
      | .fault _ => Config.unspecifiedSrcName b0 b1 }

end Sys2Proof.Machine
end

