-- ==== Sys2Proof/Machine/Ops.lean ====
section
/-! DEFINITION. The shared operations: the front end's window, presenting a pair, delivering a decode to the ports and
to the host, and raising a fault. There is no memory and no register file to operate on (R20, R40). -/

namespace Sys2Proof.Machine

/-- The outcome of a step or of a meaning. -/
abbrev Step := Host.Outcome State Fault Refusal

/-- The front end's window (20_memory.md R42): the last two bytes of a buffer in stream order, or SHORT_INPUT
(R44, R103). -/
def window (B : List Byte) : Except Cause (Byte × Byte) :=
  if h : B.length < 2 then .error .shortInput
  else .ok (B[B.length - 2]'(by omega),
            B[B.length - 1]'(by omega))

/-- The front end's result for a buffer (R42): the decode of its window, or the fault at the boundary. -/
def frontEnd (B : List Byte) : Result :=
  match window B with
  | .error c => .fault c
  | .ok (b0, b1) => decodeInstruction b0 b1

/-- The fault of a cause (60_exceptions.md section 2). -/
def faultOf : Cause → Fault
  | .opcodeClass => .opcodeClass
  | .addrMode => .addrMode
  | .shortInput => .shortInput

/-- TAKING A FAULT, once for every cause: no state is saved and no handler entered (R110), no pair and no text are
produced (R108, R109), and the run ends. No return from a fault exists (R111). -/
def raiseFault (c : Cause) : Step := .fault (faultOf c)

/-- The mnemonic of the one instruction class, implied by `ok = 1` (R94). -/
def mnemonic : String := "mov"

/-- The host's rendering of an accepted decode (R95, R66). -/
def render (dst src : Register) : String :=
  mnemonic ++ " " ++ displayName dst ++ ", " ++ displayName src

/-- Hand over the oldest pending buffer: `rest` stays pending, for a buffer is consumed by one decode and not
retained (R41). -/
def State.consume (rest : List (List Byte)) (s : State) : State := { s with pending := rest }

/-- The host presents a pair on the input ports (R47, R122); levels sampled for an earlier pair are gone. -/
def State.present (b0 b1 : Byte) (s : State) : State := { s with ports := some (b0, b1), outputs := none }

/-- The block drives its output ports (R22). -/
def State.drive (o : Outputs) (s : State) : State := { s with outputs := some o }

/-- The host prints one rendered line (R95). -/
def State.print (line : String) (s : State) : State := { s with printed := s.printed ++ [line] }

/-- The output levels of an accepted decode with direction `d`, width `w`, operands `reg` and `rm`, and the result
`Ok(dst, src)` (R86, R87, R93). -/
def acceptedOutputs (d : Bool) (w : Width) (reg rm dst src : Register) : Outputs where
  isMov := true
  isRegmode := true
  d := d
  w := widthBit w
  regId := regIdOf reg
  rmId := regIdOf rm
  ok := true
  fault := false
  cause := causeNone
  dstId := regIdOf dst
  srcId := regIdOf src
  dstName := nameWord (regIdOf dst)
  srcName := nameWord (regIdOf src)

/-- `return Ok(dst, src)`, shared by the four forms: the ports carry the decode and the host prints its line
(R86, R93, R95). -/
def returnOk (d : Bool) (w : Width) (reg rm dst src : Register) (s : State) : Step :=
  .next ((s.drive (acceptedOutputs d w reg rm dst src)).print (render dst src))

end Sys2Proof.Machine
end

