-- ==== Sys2Proof/Machine/Mov.lean ====
section
/-! DEFINITION. The meanings of the four MOV forms (41_instruction_decoder.md section 3). A form's whole effect is its
decode: no data moves (00_scope.md R7), no flag is written (R29). -/

namespace Sys2Proof.Machine

/-- R88, MOV r/m8, r8 (d = 0, w = 0): `return Ok(REG[0][rm], REG[0][reg])`. -/
def execMovRm8R8 (rm reg : Register) (s : State) : Step :=
  returnOk false .byte reg rm rm reg s

/-- R89, MOV r8, r/m8 (d = 1, w = 0): `return Ok(REG[0][reg], REG[0][rm])`. -/
def execMovR8Rm8 (reg rm : Register) (s : State) : Step :=
  returnOk true .byte reg rm reg rm s

/-- R90, MOV r/m16, r16 (d = 0, w = 1): `return Ok(REG[1][rm], REG[1][reg])`. -/
def execMovRm16R16 (rm reg : Register) (s : State) : Step :=
  returnOk false .word reg rm rm reg s

/-- R91, MOV r16, r/m16 (d = 1, w = 1): `return Ok(REG[1][reg], REG[1][rm])`. -/
def execMovR16Rm16 (reg rm : Register) (s : State) : Step :=
  returnOk true .word reg rm reg rm s

end Sys2Proof.Machine
end

