-- ==== Sys2Proof/Machine/Dispatch.lean ====
section
/-! DEFINITION. One arm for each form of Instr. -/

namespace Sys2Proof.Machine

def exec (i : Instr) (s : State) : Host.Outcome State Fault Refusal :=
  match i with
  | .movRm8R8 rm reg => Sys2Proof.Machine.execMovRm8R8 rm reg s
  | .movR8Rm8 reg rm => Sys2Proof.Machine.execMovR8Rm8 reg rm s
  | .movRm16R16 rm reg => Sys2Proof.Machine.execMovRm16R16 rm reg s
  | .movR16Rm16 reg rm => Sys2Proof.Machine.execMovR16Rm16 reg rm s

end Sys2Proof.Machine
end

