-- ==== Sys2Proof/Machine/Step.lean ====
section
/-! DEFINITION. One step: one atomic, untimed decode of the oldest buffer the host has handed in
(70_reset_and_hazards.md R123), its instruction run by exec. -/

namespace Sys2Proof.Machine

/-- One step. With nothing handed in the machine waits for its host, unchanged (R121, R122; DESIGN CHOICE, log
entry 2). -/
def step (s : State) : Host.Outcome State Fault Refusal :=
  match s.pending with
  | [] => .next s
  | B :: rest =>
    match window B with
    | .error c => raiseFault c
    | .ok (b0, b1) =>
      match decode b0 b1 with
      | .error c => raiseFault c
      | .ok i => exec i ((s.consume rest).present b0 b1)

/-- The host hands in one more buffer, the two bytes of a table word, to be decoded next (log entry 11). -/
def State.withFetchWord (s : State) (nbits w : Nat) : State :=
  { s with pending := [(tableBytes nbits w).1, (tableBytes nbits w).2] :: s.pending }

end Sys2Proof.Machine
end

