-- ==== Sys2Proof/Machine/HostRun.lean ====
section
/-! DEFINITION. A whole run as the spec tells it for the host (60_exceptions.md R109, 41_instruction_decoder.md R95):
each buffer's result rendered, or the run aborted at the first fault. It is written over `frontEnd` and
`decode_instruction`, not over `step`. -/

namespace Sys2Proof.Machine

/-- How a run ends: normally, or aborted with a cause; and the lines printed by then. The diagnostic's text and the
exit status are not observed (93 I4, log entry 10). -/
inductive RunEnd where
  | normal (printed : List String)
  | aborted (cause : Cause) (printed : List String)
  deriving DecidableEq, Repr

/-- The host's run over its buffers, with the lines printed so far. A fault renders no text and no further decode is
taken (R109). -/
def hostRun (printed : List String) : List (List Byte) → RunEnd
  | [] => .normal printed
  | B :: rest =>
    match frontEnd B with
    | .ok dst src => hostRun (printed ++ [render dst src]) rest
    | .fault c => .aborted c printed

end Sys2Proof.Machine
end

