-- ==== Sys2Proof/Safety.lean ====
section
/-! DEFINITION. What a claim may ask of a run: acceptance, a normal end, and the invariant that ties the sampled output
levels and the printed lines to the pair on the ports. -/

namespace Sys2Proof.Machine

/-- An accepted encoding (30_encoding.md R63): both hardwired comparisons hold. -/
def accepts (b0 b1 : Byte) : Bool := classifyOpcode b0 && isRegisterAddressingMode b1

/-- The run from `s` takes every pending buffer and ends normally: it never faults (R109). -/
def State.EndsNormally (s : State) : Prop :=
  ∃ t : State, Host.Core.run Sys2Proof.core s.pending.length s = .next t ∧ t.pending = []

/-- The invariant of the machine. -/
structure State.Inv (s : State) : Prop where
  /-- Sampled levels are those of the combinational block for the pair on the ports, and that pair is accepted (R20,
  R22). -/
  sampled : ∀ o, s.outputs = some o →
    ∃ b0 b1, s.ports = some (b0, b1) ∧ o = outputsOf b0 b1 ∧ accepts b0 b1 = true
  /-- A presented pair has been decoded: a step is one atomic evaluation (R123). -/
  decoded : s.outputs = none → s.ports = none
  /-- The last line printed names the operands on the result ports (R95). -/
  lastLine : ∀ o, s.outputs = some o →
    ∃ dst src, o.dstId = regIdOf dst ∧ o.srcId = regIdOf src ∧ s.printed.getLast? = some (render dst src)
  /-- Every line printed is the rendering of two registers of one width class (R25, R95). -/
  lines : ∀ l ∈ s.printed, ∃ dst src, widthOf dst = widthOf src ∧ l = render dst src

end Sys2Proof.Machine
end

