-- ==== Sys2Proof/Certificates/Slice0/Obligations.lean ====
section
/-! DEFINITION. The statements about the decoder. -/

open Sys2Proof Sys2Proof.Machine

/-! ### The Register Model -/

/-- R70, R71, R72 (40_register_model.md): the two tables, entry by entry; the lookup is the table's entry, equals
`{width, code}` under the identifier encoding of R24, and is injective over all 16 pairs. -/
def Obligations.RegisterLookupReadsTheTwoTables : Prop :=
  byteTable.toList = [.al, .cl, .dl, .bl, .ah, .ch, .dh, .bh] ∧
  wordTable.toList = [.ax, .cx, .dx, .bx, .sp, .bp, .si, .di] ∧
  byteTable.toList.map regIdOf = [0, 1, 2, 3, 4, 5, 6, 7] ∧
  wordTable.toList.map regIdOf = [8, 9, 10, 11, 12, 13, 14, 15] ∧
  (∀ code : Code, byteTable.toList[code.toNat]? = some (regLookup code .byte) ∧
    wordTable.toList[code.toNat]? = some (regLookup code .word)) ∧
  (∀ (code : Code) (w : Width), regIdOf (regLookup code w) = BitVec.ofBool (widthBit w) ++ code) ∧
  (∀ (c c' : Code) (w w' : Width), regLookup c w = regLookup c' w' → c = c' ∧ w = w') ∧
  regLookup 0b011 .word = .bx ∧ regLookup 0b100 .byte = .ah

/-- R25 (10_state.md): the width class of a register is bit 3 of its identifier and is the table's that produced it;
both operands of one decode have the class that `w` selects. -/
def Obligations.BothOperandsHaveTheWidthClassOfW : Prop :=
  (∀ r : Register, widthOf r = if (regIdOf r).getLsbD 3 then .word else .byte) ∧
  (∀ (code : Code) (w : Width), widthOf (regLookup code w) = w) ∧
  (∀ (b0 b1 : Byte) (dst src : Register), decodeInstruction b0 b1 = .ok dst src →
    widthOf dst = (if b0.getLsbD 0 then .word else .byte) ∧ widthOf src = widthOf dst)

/-- R74 (40_register_model.md): the 16 names in identifier order; the function is total and has no failure. -/
def Obligations.DisplayNamesAreTheLowercaseRegisterNames : Prop :=
  nameTable.toList = ["al", "cl", "dl", "bl", "ah", "ch", "dh", "bh", "ax", "cx", "dx", "bx", "sp", "bp", "si", "di"] ∧
  (∀ id : RegId, nameTable.toList[id.toNat]? = some (nameText id)) ∧
  (∀ r : Register, displayName r = nameText (regIdOf r)) ∧
  nameText 11 = "bx" ∧ displayName .ax = "ax"

/-- R76, which the spec derives by inspection: distinct registers never share a name, and every name is two lowercase
letters. -/
def Obligations.DisplayNamesAreDistinctLowercasePairs : Prop :=
  (∀ r r' : Register, displayName r = displayName r' → r = r') ∧
  (∀ r : Register, (displayName r).toList.length = 2 ∧ (displayName r).toList.all Char.isLower = true)

/-- R75, a decision of the spec (D4) over ASCII codes from general knowledge: a ROM word is the two character codes of
its name, the first in bits 15:8. -/
def Obligations.NameRomWordsSpellTheNames : Prop :=
  ∀ id : RegId, wordOfName (nameText id) = some (nameWord id)

/-- R73 and R105, a decision of the spec (D15): the lookup on natural numbers refuses a code of 8 or more and a width
outside 0 and 1, and is the hardware's lookup on every other argument. That the code is the one
reported where both are out of range is the model's choice (log entry 19). -/
def Obligations.WideRegisterLookupRefusesAndNeverWraps : Prop :=
  (∀ (code : Code), regLookupNat code.toNat 0 = .ok (regLookup code .byte) ∧
    regLookupNat code.toNat 1 = .ok (regLookup code .word)) ∧
  (∀ code width : Nat, 8 ≤ code → regLookupNat code width = .error .codeOutOfRange) ∧
  (∀ code width : Nat, code < 8 → 2 ≤ width → regLookupNat code width = .error .widthOutOfRange)

/-! ### The sub-functions of the Instruction Decoder -/

/-- R80 and R104, the refusal a decision of the spec (D15): `extract_bit` reads bit `p` for `p` in 0 to 7 and refuses
every other position. -/
def Obligations.ExtractBitReadsInRangeAndRefusesBeyond : Prop :=
  (∀ (b : Byte) (p : Nat), p < 8 → extractBit b p = .ok (b.getLsbD p)) ∧
  (∀ (b : Byte) (p : Nat), 8 ≤ p → extractBit b p = .error .bitIndexOutOfRange) ∧
  (∀ b0 : Byte, extractBit b0 1 = .ok (dField b0) ∧ extractBit b0 0 = .ok (wField b0)) ∧
  extractBit 0b10000010 1 = .ok true ∧ extractBit 0b10000010 0 = .ok false

/-- R81: the classifier compares the top five bits, drives `is_mov`, and is true for `0x88` to `0x8F` and false for the
other 248 values. -/
def Obligations.ClassifierMatchesTheTopFiveBits : Prop :=
  (∀ b0 : Byte, classifyOpcode b0 = (b0.extractLsb' 3 5 == 0b10001#5)) ∧
  (∀ b0 b1 : Byte, (outputsOf b0 b1).isMov = classifyOpcode b0) ∧
  (∀ b0 : Byte, classifyOpcode b0 = true ↔ 0x88#8 ≤ b0 ∧ b0 ≤ 0x8F#8) ∧
  (List.range 256).countP (fun n => !classifyOpcode (BitVec.ofNat 8 n)) = 248 ∧
  classifyOpcode 0b10001001 = true ∧ classifyOpcode 0b00000000 = false

/-- R82: the mode check compares the top two bits, drives `is_regmode`, and is true for `0xC0` to `0xFF`. -/
def Obligations.ModeCheckMatchesTheTopTwoBits : Prop :=
  (∀ b1 : Byte, isRegisterAddressingMode b1 = (b1.extractLsb' 6 2 == 0b11#2)) ∧
  (∀ b0 b1 : Byte, (outputsOf b0 b1).isRegmode = isRegisterAddressingMode b1) ∧
  (∀ b1 : Byte, isRegisterAddressingMode b1 = true ↔ 0xC0#8 ≤ b1) ∧
  isRegisterAddressingMode 0b11011000 = true ∧ isRegisterAddressingMode 0b10000000 = false

/-- R83, R84: the field decoders resolve bits 5:3 and 2:0 of `b1` with `w`, whatever the mode bits are, and drive
`reg_id` and `rm_id`. -/
def Obligations.FieldDecodersResolveRegAndRm : Prop :=
  (∀ (b1 : Byte) (w : Width), decodeRegField b1 w = regLookup (b1.extractLsb' 3 3) w ∧
    decodeRmField b1 w = regLookup (b1.extractLsb' 0 3) w) ∧
  (∀ b0 b1 : Byte, (outputsOf b0 b1).regId = regIdOf (decodeRegField b1 (widthOfBit (b0.getLsbD 0))) ∧
    (outputsOf b0 b1).rmId = regIdOf (decodeRmField b1 (widthOfBit (b0.getLsbD 0)))) ∧
  decodeRegField 0xD8 .word = .bx ∧ decodeRmField 0xD8 .word = .ax

/-- R87, a decision of the spec (D17): the raw outputs are driven for every pair, those that fault included, each as
its function of the two bytes. -/
def Obligations.RawOutputsAreDrivenForEveryPair : Prop :=
  ∀ b0 b1 : Byte,
    (outputsOf b0 b1).isMov = (b0.extractLsb' 3 5 == 0b10001#5) ∧
    (outputsOf b0 b1).isRegmode = (b1.extractLsb' 6 2 == 0b11#2) ∧
    (outputsOf b0 b1).d = b0.getLsbD 1 ∧
    (outputsOf b0 b1).w = b0.getLsbD 0 ∧
    (outputsOf b0 b1).regId = b0.extractLsb' 0 1 ++ b1.extractLsb' 3 3 ∧
    (outputsOf b0 b1).rmId = b0.extractLsb' 0 1 ++ b1.extractLsb' 0 3

/-! ### Operand assembly and the decode -/

/-- R59, R60, R61 (30_encoding.md): `w` selects the table of both operands, and `d = 1` makes the reg field the
destination, `d = 0` the rm field; on an accepted pair the step's ports carry that ordered pair. -/
def Obligations.DirectionOrdersTheOperandsAndWidthSelectsTheTable : Prop :=
  ∀ (s : State) (rest : List (List Byte)) (B : List Byte) (b0 b1 : Byte),
    s.pending = (B ++ [b0, b1]) :: rest → accepts b0 b1 = true →
    let w : Width := if b0.getLsbD 0 then .word else .byte
    let reg := regLookup (b1.extractLsb' 3 3) w
    let rm := regLookup (b1.extractLsb' 0 3) w
    let dst := if b0.getLsbD 1 then reg else rm
    let src := if b0.getLsbD 1 then rm else reg
    decodeInstruction b0 b1 = .ok dst src ∧
    ∃ (t : State) (o : Outputs), step s = .next t ∧ t.outputs = some o ∧
      o.d = b0.getLsbD 1 ∧ o.w = b0.getLsbD 0 ∧
      regIdOf reg = b0.extractLsb' 0 1 ++ b1.extractLsb' 3 3 ∧
      regIdOf rm = b0.extractLsb' 0 1 ++ b1.extractLsb' 0 3 ∧
      o.regId = regIdOf reg ∧ o.rmId = regIdOf rm ∧ o.dstId = regIdOf dst ∧ o.srcId = regIdOf src

/-- R88: `10001x00 11rrrmmm` names byte register rm as destination and byte register reg as source, for either value
of the ignored bit, the same register twice included. The instruction completes from every state; it drives every
output port, the host prints the line, and the input ports and the pending buffers are unchanged. -/
def Obligations.MovRm8R8DeliversRmThenReg : Prop :=
  (∀ (x : Bool) (reg rm : Code) (s : State),
    let b0 : Byte := 0b10001#5 ++ BitVec.ofBool x ++ 0b00#2
    let b1 : Byte := 0b11#2 ++ reg ++ rm
    let dst := regLookup rm .byte
    let src := regLookup reg .byte
    decodeInstruction b0 b1 = .ok dst src ∧
    decode b0 b1 = .ok (.movRm8R8 dst src) ∧
    exec (.movRm8R8 dst src) s = .next { s with
      outputs := some { isMov := true, isRegmode := true, d := false, w := false,
                        regId := 0#1 ++ reg, rmId := 0#1 ++ rm, ok := true, fault := false, cause := 0,
                        dstId := 0#1 ++ rm, srcId := 0#1 ++ reg,
                        dstName := nameWord (0#1 ++ rm), srcName := nameWord (0#1 ++ reg) }
      printed := s.printed ++ ["mov " ++ displayName dst ++ ", " ++ displayName src] }) ∧
  decodeInstruction 0x88 0xC1 = .ok .cl .al ∧ render .cl .al = "mov cl, al"

/-- R89: `10001x10 11rrrmmm` names byte register reg as destination and byte register rm as source. -/
def Obligations.MovR8Rm8DeliversRegThenRm : Prop :=
  (∀ (x : Bool) (reg rm : Code) (s : State),
    let b0 : Byte := 0b10001#5 ++ BitVec.ofBool x ++ 0b10#2
    let b1 : Byte := 0b11#2 ++ reg ++ rm
    let dst := regLookup reg .byte
    let src := regLookup rm .byte
    decodeInstruction b0 b1 = .ok dst src ∧
    decode b0 b1 = .ok (.movR8Rm8 dst src) ∧
    exec (.movR8Rm8 dst src) s = .next { s with
      outputs := some { isMov := true, isRegmode := true, d := true, w := false,
                        regId := 0#1 ++ reg, rmId := 0#1 ++ rm, ok := true, fault := false, cause := 0,
                        dstId := 0#1 ++ reg, srcId := 0#1 ++ rm,
                        dstName := nameWord (0#1 ++ reg), srcName := nameWord (0#1 ++ rm) }
      printed := s.printed ++ ["mov " ++ displayName dst ++ ", " ++ displayName src] }) ∧
  decodeInstruction 0x8A 0xC1 = .ok .al .cl ∧ render .al .cl = "mov al, cl"

/-- R90: `10001x01 11rrrmmm` names word register rm as destination and word register reg as source. -/
def Obligations.MovRm16R16DeliversRmThenReg : Prop :=
  (∀ (x : Bool) (reg rm : Code) (s : State),
    let b0 : Byte := 0b10001#5 ++ BitVec.ofBool x ++ 0b01#2
    let b1 : Byte := 0b11#2 ++ reg ++ rm
    let dst := regLookup rm .word
    let src := regLookup reg .word
    decodeInstruction b0 b1 = .ok dst src ∧
    decode b0 b1 = .ok (.movRm16R16 dst src) ∧
    exec (.movRm16R16 dst src) s = .next { s with
      outputs := some { isMov := true, isRegmode := true, d := false, w := true,
                        regId := 1#1 ++ reg, rmId := 1#1 ++ rm, ok := true, fault := false, cause := 0,
                        dstId := 1#1 ++ rm, srcId := 1#1 ++ reg,
                        dstName := nameWord (1#1 ++ rm), srcName := nameWord (1#1 ++ reg) }
      printed := s.printed ++ ["mov " ++ displayName dst ++ ", " ++ displayName src] }) ∧
  decodeInstruction 0x89 0xD8 = .ok .ax .bx ∧ render .ax .bx = "mov ax, bx"

/-- R91: `10001x11 11rrrmmm` names word register reg as destination and word register rm as source. -/
def Obligations.MovR16Rm16DeliversRegThenRm : Prop :=
  (∀ (x : Bool) (reg rm : Code) (s : State),
    let b0 : Byte := 0b10001#5 ++ BitVec.ofBool x ++ 0b11#2
    let b1 : Byte := 0b11#2 ++ reg ++ rm
    let dst := regLookup reg .word
    let src := regLookup rm .word
    decodeInstruction b0 b1 = .ok dst src ∧
    decode b0 b1 = .ok (.movR16Rm16 dst src) ∧
    exec (.movR16Rm16 dst src) s = .next { s with
      outputs := some { isMov := true, isRegmode := true, d := true, w := true,
                        regId := 1#1 ++ reg, rmId := 1#1 ++ rm, ok := true, fault := false, cause := 0,
                        dstId := 1#1 ++ reg, srcId := 1#1 ++ rm,
                        dstName := nameWord (1#1 ++ reg), srcName := nameWord (1#1 ++ rm) }
      printed := s.printed ++ ["mov " ++ displayName dst ++ ", " ++ displayName src] }) ∧
  decodeInstruction 0x8B 0xD8 = .ok .bx .ax ∧ render .bx .ax = "mov bx, ax"

/-- The frame of all four forms: each completes from every state, leaves the pending buffers and the input ports as
they were, adds exactly one line, and drives `ok = 1`, `fault = 0`, `cause = 0` (R27 to R30: there is nothing else it
could change; log entry 13). For operands of the form's own width class this is the spec's. That the result ports and
the line name also operands of another width class, which no table gives the form, is the model's choice (log entry
16). -/
def Obligations.EveryFormCompletesAndChangesOnlyPortsAndText : Prop :=
  ∀ (a b : Register) (s : State) (i : Instr),
    i ∈ [Instr.movRm8R8 a b, .movR8Rm8 a b, .movRm16R16 a b, .movR16Rm16 a b] →
    ∃ (t : State) (o : Outputs), exec i s = .next t ∧ t.pending = s.pending ∧ t.ports = s.ports ∧
      t.outputs = some o ∧ o.ok = true ∧ o.fault = false ∧ o.cause = 0 ∧
      o.dstId = regIdOf a ∧ o.srcId = regIdOf b ∧
      t.printed = s.printed ++ [render a b]

/-- R92, derived by the spec: equal reg and rm codes are an ordinary accepted decode, with one register as both
operands. -/
def Obligations.SameRegisterTwiceIsAccepted : Prop :=
  ∀ b0 b1 : Byte, accepts b0 b1 = true → b1.extractLsb' 3 3 = b1.extractLsb' 0 3 →
    ∃ r : Register, decodeInstruction b0 b1 = .ok r r

/-- R57, derived by the spec: a pair with `b0[2]` flipped decodes exactly as the pair, and its step leaves the same
outputs and the same text. -/
def Obligations.BitTwoOfTheOpcodeByteIsIgnored : Prop :=
  ∀ (b0 b1 : Byte) (s : State) (rest : List (List Byte)) (B : List Byte),
    decode (b0 ^^^ 0b100#8) b1 = decode b0 b1 ∧
    decodeInstruction (b0 ^^^ 0b100#8) b1 = decodeInstruction b0 b1 ∧
    (∀ t : State, step { s with pending := (B ++ [b0, b1]) :: rest } = .next t →
      step { s with pending := (B ++ [b0 ^^^ 0b100#8, b1]) :: rest } =
        .next { t with ports := some (b0 ^^^ 0b100#8, b1) }) ∧
    (∀ f : Fault, step { s with pending := (B ++ [b0, b1]) :: rest } = .fault f →
      step { s with pending := (B ++ [b0 ^^^ 0b100#8, b1]) :: rest } = .fault f)

/-- R67, derived by the spec: the encoding with `d` flipped and reg and rm swapped decodes to the same pair, so the
spelling does not determine the encoding. -/
def Obligations.SwappedEncodingsNameTheSameOperands : Prop :=
  (∀ (x x' w : Bool) (reg rm : Code),
    decodeInstruction (opcodeByte x true w) (addressingByte reg rm) =
      decodeInstruction (opcodeByte x' false w) (addressingByte rm reg)) ∧
  decodeInstruction 0x89 0xD8 = .ok .ax .bx ∧ decodeInstruction 0x8B 0xC3 = .ok .ax .bx

/-- R63 and R68, which the spec derives and decides: the decoder and the opcode table agree. A pair decodes to a form
exactly when that form's row matches `W = {b0, b1}`, and no word is matched by two rows. -/
def Obligations.DecoderFollowsTheOpcodeTable : Prop :=
  (∀ (b0 b1 : Byte) (i : Instr), decode b0 b1 = .ok i ↔
    ∃ row ∈ opcodeRows, row.covers (tableWord b0 b1) = true ∧
      i = row.form (decodeRegField b1 (widthOfBit (wField b0))) (decodeRmField b1 (widthOfBit (wField b0)))) ∧
  opcodeRows.Pairwise fun r r' => ∀ W : TableWord, ¬ (r.covers W = true ∧ r'.covers W = true)

/-- Two descriptions of the decode agree: the decoder rejects a pair exactly with the cause of `decode_instruction`,
and an instruction it gives is well formed and delivers exactly the pair of `decode_instruction` (R86; the priority of
the causes is the spec's decision D6). -/
def Obligations.DecoderAndExecAgreeWithDecodeInstruction : Prop :=
  (∀ (b0 b1 : Byte) (c : Cause), decode b0 b1 = .error c ↔ decodeInstruction b0 b1 = .fault c) ∧
  (∀ (b0 b1 : Byte) (i : Instr), decode b0 b1 = .ok i → i.WellFormed ∧
    ∃ dst src : Register, decodeInstruction b0 b1 = .ok dst src ∧
      ∀ s : State, ∃ t : State, exec i s = .next t ∧ t.printed = s.printed ++ [render dst src])

/-- The meaning of the decoded instruction drives the output ports exactly as the combinational equations of R22 give
them for the pair, from every state. -/
def Obligations.ExecDrivesThePortsOfTheCombinationalBlock : Prop :=
  ∀ (b0 b1 : Byte) (i : Instr) (s : State), decode b0 b1 = .ok i →
    exec i s = .next { s with
      outputs := some (outputsOf b0 b1)
      printed := s.printed ++ ["mov " ++ nameText (outputsOf b0 b1).dstId ++ ", " ++ nameText (outputsOf b0 b1).srcId] }

/-! ### Encoding -/

/-- Decoding the encoding of a well-formed instruction gives it back, for either value of the ignored bit `b0[2]`. -/
def Obligations.DecodeOfEncodeIsTheInstruction : Prop :=
  ∀ (x : Bool) (i : Instr), i.WellFormed → decode (encodeWith x i).1 (encodeWith x i).2 = .ok i

/-- Encoding what a pair decodes to, with the pair's own ignored bit, gives the two bytes back: no other bit is
dropped. -/
def Obligations.EncodeOfDecodeIsThePair : Prop :=
  ∀ (b0 b1 : Byte) (i : Instr), decode b0 b1 = .ok i → i.WellFormed ∧ encodeWith (b0.getLsbD 2) i = (b0, b1)

/-- Words written out from the encodings of R88 to R91 decode to their instructions, and pairs outside them are
rejected by name. -/
def Obligations.WordsFromTheSpecDecode : Prop :=
  decode 0b10001000 0b11000001 = .ok (.movRm8R8 .cl .al) ∧
  decode 0b10001010 0b11000001 = .ok (.movR8Rm8 .al .cl) ∧
  decode 0b10001001 0b11100101 = .ok (.movRm16R16 .bp .sp) ∧
  decode 0b10001011 0b11110111 = .ok (.movR16Rm16 .si .di) ∧
  decode 0b10001110 0b11000100 = .ok (.movR8Rm8 .al .ah) ∧
  decode 0b10001111 0b11111111 = .ok (.movR16Rm16 .di .di) ∧
  decode 0b10010000 0b11000000 = .error .opcodeClass ∧
  decode 0b10001001 0b10111111 = .error .addrMode

/-! ### Faults -/

/-- R101: OPCODE_CLASS is raised exactly when the classifier is false, for 248 of the 256 first bytes; `is_mov = 0`
shows the failed check, and the step that presents the pair stops. -/
def Obligations.OpcodeClassIsRaisedExactlyOutsideTheMovClass : Prop :=
  (∀ b0 b1 : Byte, decodeInstruction b0 b1 = .fault .opcodeClass ↔ b0.extractLsb' 3 5 ≠ 0b10001#5) ∧
  (∀ b0 b1 : Byte, b0.extractLsb' 3 5 ≠ 0b10001#5 →
    classifyOpcode b0 = false ∧ (outputsOf b0 b1).cause = 1 ∧ (outputsOf b0 b1).isMov = false) ∧
  (List.range 256).countP (fun n => !classifyOpcode (BitVec.ofNat 8 n)) = 248 ∧
  (∀ (s : State) (rest : List (List Byte)) (B : List Byte) (b0 b1 : Byte),
    s.pending = (B ++ [b0, b1]) :: rest →
      (step s = .fault .opcodeClass ↔ b0.extractLsb' 3 5 ≠ 0b10001#5))

/-- R102: ADDR_MODE is raised exactly when the classifier is true and the mode is 00, 01 or 10; `is_regmode = 0` shows
it, and the step that presents the pair stops. -/
def Obligations.AddrModeIsRaisedExactlyForMemoryModes : Prop :=
  (∀ b0 b1 : Byte, decodeInstruction b0 b1 = .fault .addrMode ↔
    classifyOpcode b0 = true ∧ (b1.extractLsb' 6 2 = 0b00#2 ∨ b1.extractLsb' 6 2 = 0b01#2 ∨ b1.extractLsb' 6 2 = 0b10#2)) ∧
  (∀ b0 b1 : Byte, classifyOpcode b0 = true → isRegisterAddressingMode b1 = false →
    decodeInstruction b0 b1 = .fault .addrMode ∧
    (outputsOf b0 b1).cause = 2 ∧ (outputsOf b0 b1).isRegmode = false) ∧
  (∀ (s : State) (rest : List (List Byte)) (B : List Byte) (b0 b1 : Byte),
    s.pending = (B ++ [b0, b1]) :: rest →
      (step s = .fault .addrMode ↔ classifyOpcode b0 = true ∧ isRegisterAddressingMode b1 = false))

/-- R44: a buffer of fewer than two bytes is a fault at the front end's boundary: no pair is presented, and the decoder
itself never has this fault. -/
def Obligations.ShortBufferFaultsAtTheBoundaryOnly : Prop :=
  (∀ (s : State) (B : List Byte) (rest : List (List Byte)), s.pending = B :: rest →
    (step s = .fault .shortInput ↔ B.length < 2)) ∧
  (∀ B : List Byte, B.length < 2 → frontEnd B = .fault .shortInput ∧ ∀ p : Byte × Byte, window B ≠ .ok p) ∧
  (∀ b0 b1 : Byte, decodeInstruction b0 b1 ≠ .fault .shortInput)

/-- R106, a decision of the spec (D6; log entry 6): of several causes one is reported, SHORT_INPUT, then OPCODE_CLASS,
then ADDR_MODE; and every pair that is not accepted faults (R64). -/
def Obligations.CausesAreReportedByPriority : Prop :=
  (∀ (s : State) (B : List Byte) (rest : List (List Byte)), s.pending = B :: rest → B.length < 2 →
    step s = .fault .shortInput) ∧
  (∀ (s : State) (B : List Byte) (rest : List (List Byte)) (b0 b1 : Byte), s.pending = (B ++ [b0, b1]) :: rest →
    accepts b0 b1 = false →
      step s = .fault (if b0.extractLsb' 3 5 = 0b10001#5 then .addrMode else .opcodeClass)) ∧
  decodeInstruction 0x00 0x00 = .fault .opcodeClass

/-- R22 and R108, decisions of the spec (D2, D5, D7): `fault` is the complement of `ok`; on a fault `cause` is the
cause's code, 1 or 2 and never 3; on an accepted decode `cause = 0` and each name port carries its ROM word. Nothing is
said of the four result ports on a fault (log entry 5). -/
def Obligations.StatusOutputsTellTheDecode : Prop :=
  ∀ b0 b1 : Byte,
    (outputsOf b0 b1).ok = accepts b0 b1 ∧
    (outputsOf b0 b1).fault = !(outputsOf b0 b1).ok ∧
    (∀ c : Cause, decodeInstruction b0 b1 = .fault c →
      (outputsOf b0 b1).cause = (match c with | .opcodeClass => 1#2 | .addrMode => 2#2 | .shortInput => 3#2)) ∧
    (outputsOf b0 b1).cause ≠ 3#2 ∧
    ((outputsOf b0 b1).ok = true →
      (outputsOf b0 b1).cause = 0#2 ∧
      (outputsOf b0 b1).dstName = nameWord (outputsOf b0 b1).dstId ∧
      (outputsOf b0 b1).srcName = nameWord (outputsOf b0 b1).srcId)

/-! ### The front end, the step and the host -/

/-- R42 and R43 (the order of the two bytes is the spec's decision D9; log entry 7): the front end presents the last
two bytes in stream order, and the bytes before them have no effect on a step. -/
def Obligations.OnlyTheLastTwoBytesOfABufferCount : Prop :=
  (∀ (B : List Byte) (b0 b1 : Byte), window (B ++ [b0, b1]) = .ok (b0, b1)) ∧
  (∀ (s : State) (rest : List (List Byte)) (B B' : List Byte) (b0 b1 : Byte),
    step { s with pending := (B ++ [b0, b1]) :: rest } = step { s with pending := (B' ++ [b0, b1]) :: rest })

/-- A step runs the decoded instruction: when the oldest pending buffer's window decodes to `i`, the step is `exec i`
with that buffer consumed and its pair on the input ports. -/
def Obligations.StepRunsTheDecodedInstruction : Prop :=
  ∀ (s : State) (B : List Byte) (rest : List (List Byte)) (b0 b1 : Byte) (i : Instr),
    s.pending = B :: rest → window B = .ok (b0, b1) → decode b0 b1 = .ok i →
    step s = exec i { s with pending := rest, ports := some (b0, b1), outputs := none }

/-- A table word handed in is run by the very next step (log entry 11). -/
def Obligations.HandedInWordIsRunNext : Prop :=
  ∀ (s : State) (w : Nat) (i : Instr), decodeTableWord 16 w = some i →
    step (s.withFetchWord 16 w) =
      exec i { s with ports := some (BitVec.ofNat 8 (w / 256), BitVec.ofNat 8 w), outputs := none }

/-- With nothing handed in, a step leaves the machine as it is: the model's choice (log entry 2). -/
def Obligations.StepWithNothingHandedInChangesNothing : Prop :=
  ∀ s : State, s.pending = [] → step s = .next s

/-- A step never refuses, and its outcome is the front end's result: on `Ok(dst, src)` the buffer is consumed and one
line printed, on `Fault(c)` the run stops with that fault. -/
def Obligations.StepOutcomeIsTheFrontEndResult : Prop :=
  (∀ (s : State) (r : Refusal), step s ≠ .refused r) ∧
  (∀ (s : State) (B : List Byte) (rest : List (List Byte)), s.pending = B :: rest →
    (∀ c : Cause, step s = .fault (faultOf c) ↔ frontEnd B = .fault c) ∧
    (∀ dst src : Register, frontEnd B = .ok dst src → ∃ t : State, step s = .next t ∧
      t.pending = rest ∧ t.ports.isSome = true ∧ t.printed = s.printed ++ [render dst src]))

/-- R95 and R66: an accepted decode is rendered `mov <dst>, <src>` with one space after the mnemonic and after the
comma, and a fault renders no instruction text: the run is aborted with the lines printed before it. -/
def Obligations.HostRendersDecodesAndNothingOnAFault : Prop :=
  (∀ dst src : Register, render dst src = "mov " ++ displayName dst ++ ", " ++ displayName src) ∧
  (∀ (s t : State) (B : List Byte) (rest : List (List Byte)), s.pending = B :: rest → step s = .next t →
    ∃ dst src : Register, frontEnd B = .ok dst src ∧
      t.printed = s.printed ++ ["mov " ++ displayName dst ++ ", " ++ displayName src]) ∧
  (∀ (s : State) (f : Fault), step s = .fault f →
    ∃ c : Cause, f = faultOf c ∧ hostRun s.printed s.pending = .aborted c s.printed) ∧
  render .ax .bx = "mov ax, bx" ∧ render .bx .ax = "mov bx, ax" ∧ render .cl .al = "mov cl, al"

/-- R48: the result of a decode depends on its own bytes alone. Two steps that take the same buffer, whatever was
decoded before and whatever is pending after, fault alike or leave the same ports and print the same line; and two
runs over the same buffers, from whatever ports and text, fault alike or add the same lines. -/
def Obligations.DecodesAreIndependent : Prop :=
  (∀ (s s' : State) (B : List Byte) (rest rest' : List (List Byte)),
    s.pending = B :: rest → s'.pending = B :: rest' →
    (∃ f : Fault, step s = .fault f ∧ step s' = .fault f) ∨
    (∃ (t t' : State) (line : String), step s = .next t ∧ step s' = .next t' ∧
      t.ports = t'.ports ∧ t.outputs = t'.outputs ∧
      t.printed = s.printed ++ [line] ∧ t'.printed = s'.printed ++ [line])) ∧
  (∀ (k : Nat) (s s' : State), s.pending = s'.pending →
    (∃ f : Fault, Host.Core.run Sys2Proof.core k s = .fault f ∧ Host.Core.run Sys2Proof.core k s' = .fault f) ∨
    (∃ (t t' : State) (lines : List String), Host.Core.run Sys2Proof.core k s = .next t ∧
      Host.Core.run Sys2Proof.core k s' = .next t' ∧ t.pending = t'.pending ∧
      t.printed = s.printed ++ lines ∧ t'.printed = s'.printed ++ lines))

/-! ### The whole machine -/

/-- Nothing is presented, sampled, pending or printed at power-up (R120, R121; the values of the model's own fields are
its choice, log entry 12), and the invariant holds there. -/
def Obligations.PowerUpPresentsNothingAndMeetsInv : Prop :=
  State.reset.pending = [] ∧ State.reset.ports = none ∧ State.reset.outputs = none ∧ State.reset.printed = [] ∧
  State.reset.Inv

/-- Every step keeps the invariant: the sampled levels are those of the combinational block for the accepted pair on
the input ports, the last line names the operands on the result ports, and every line names two registers of one width
class. -/
def Obligations.EveryStepKeepsInv : Prop :=
  ∀ s t : State, s.Inv → step s = .next t → t.Inv

/-- A run of the machine is the host's run of the spec: over all pending buffers it either prints the rendering of each
and ends normally with none left, or is aborted with the cause of the first that faults, whatever stands behind it. -/
def Obligations.RunIsTheHostRun : Prop :=
  ∀ (s : State) (k : Nat), s.pending.length ≤ k →
    (∀ lines : List String, hostRun s.printed s.pending = .normal lines →
      ∃ t : State, Host.Core.run Sys2Proof.core k s = .next t ∧ t.pending = [] ∧ t.printed = lines) ∧
    (∀ (c : Cause) (lines : List String), hostRun s.printed s.pending = .aborted c lines →
      Host.Core.run Sys2Proof.core k s = .fault (faultOf c))

/-- A run ends normally exactly when every pending buffer's window is an accepted encoding. -/
def Obligations.RunEndsNormallyExactlyWhenEveryBufferIsAccepted : Prop :=
  ∀ s : State, s.EndsNormally ↔
    ∀ B ∈ s.pending, ∃ (pre : List Byte) (b0 b1 : Byte), B = pre ++ [b0, b1] ∧ accepts b0 b1 = true

/-- Reordering the pending buffers of a run that ends normally gives a run that ends normally too and prints the same
lines, reordered: at the level of runs, what R48 says of any order of decodes. -/
def Obligations.ReorderedBuffersPrintTheSameLines : Prop :=
  ∀ s s' : State, s.EndsNormally → s.pending.Perm s'.pending → s'.printed = s.printed →
    s'.EndsNormally ∧
    ∃ t t' : State, Host.Core.run Sys2Proof.core s.pending.length s = .next t ∧
      Host.Core.run Sys2Proof.core s'.pending.length s' = .next t' ∧ t'.printed.Perm t.printed

/-- R109 and R110, decisions of the spec (D8): a faulted run stays faulted and takes no further decode. Once a buffer
faults after a stretch of accepted ones, every longer run ends with that fault, whatever is pending behind it. -/
def Obligations.FaultIsTerminal : Prop :=
  ∀ (s : State) (done rest : List (List Byte)) (B : List Byte) (c : Cause) (k : Nat),
    s.pending = done ++ B :: rest → (∀ D ∈ done, ∃ dst src : Register, frontEnd D = .ok dst src) →
    frontEnd B = .fault c → done.length < k →
    Host.Core.run Sys2Proof.core k s = .fault (faultOf c)

/-! ### The register set -/

/-- R23 (10_state.md): the registers are exactly the 16 named values, 8 of byte width and 8 of word width; byte width is
8 bits and word width 16 bits; every table entry is one of them, and no other register exists. -/
def Obligations.RegisterSetIsEightByteAndEightWordRegisters : Prop :=
  let byteRegs : List Register := [.al, .cl, .dl, .bl, .ah, .ch, .dh, .bh]
  let wordRegs : List Register := [.ax, .cx, .dx, .bx, .sp, .bp, .si, .di]
  (byteRegs ++ wordRegs).Nodup ∧
  (∀ r : Register, (r ∈ byteRegs ↔ widthOf r = .byte) ∧ (r ∈ wordRegs ↔ widthOf r = .word)) ∧
  (∀ r : Register, (r ∈ byteRegs ∧ registerBits r = 8) ∨ (r ∈ wordRegs ∧ registerBits r = 16)) ∧
  (∀ code : Code, regLookup code .byte ∈ byteRegs ∧ regLookup code .word ∈ wordRegs)
end

