-- ==== Sys2Proof/Laws/RegisterModel.lean ====
section
/-! SUPPORT. What the Register Model's tables and names say once: a register is its width class and code, and the
identifier, the tables and the names determine one another. -/

namespace Sys2Proof.Machine

/-- The types and tables have the widths and sizes the spec fixes as parameters (00_scope.md R8). -/
theorem sizes_are_the_parameters :
    Byte = BitVec Config.byteW ∧ Code = BitVec Config.codeW ∧ RegId = BitVec Config.regIdW ∧
      NameWord = BitVec Config.nameW ∧ CauseCode = BitVec Config.causeW ∧
      byteTable.size = Config.nTable ∧ wordTable.size = Config.nTable ∧ nameRom.size = Config.nRegs ∧
      Config.opcW + 1 + 1 + 1 = Config.byteW ∧ Config.modW + Config.codeW + Config.codeW = Config.byteW ∧
      (∀ id : RegId, (nameText id).length = Config.nameChars) :=
  ⟨rfl, rfl, rfl, rfl, rfl, rfl, rfl, rfl, rfl, rfl, by decide⟩

@[simp] theorem widthOfBit_widthBit (w : Width) : widthOfBit (widthBit w) = w := by
  cases w <;> rfl

@[simp] theorem widthBit_widthOfBit (b : Bool) : widthBit (widthOfBit b) = b := by
  cases b <;> rfl

/-- The table entry has the table's width class (R25). -/
@[simp] theorem widthOf_regLookup (code : Code) (w : Width) : widthOf (regLookup code w) = w := by
  cases w <;> revert code <;> decide

/-- The byte table's registers have 8 bits and the word table's 16 (R23). -/
@[simp] theorem registerBits_regLookup (code : Code) (w : Width) : registerBits (regLookup code w) = bitsOfWidth w := by
  simp [registerBits]

/-- A register's width is one of the two of R23, and the wider one is the word class's. -/
theorem registerBits_cases (r : Register) :
    (widthOf r = .byte ∧ registerBits r = 8) ∨ (widthOf r = .word ∧ registerBits r = 16) := by
  cases h : widthOf r <;> simp [registerBits, h, bitsOfWidth]

/-- The table entry has the index it stands at (R72). -/
@[simp] theorem codeOf_regLookup (code : Code) (w : Width) : codeOf (regLookup code w) = code := by
  cases w <;> revert code <;> decide

/-- A register is the entry of its own table at its own code (R26). -/
@[simp] theorem regLookup_codeOf_widthOf (r : Register) : regLookup (codeOf r) (widthOf r) = r := by
  cases r <;> rfl

/-- Under R24 the identifier of a table entry is `{w, code}` (R72). -/
theorem regIdOf_regLookup (code : Code) (w : Width) :
    regIdOf (regLookup code w) = BitVec.ofBool (widthBit w) ++ code := by
  cases w <;> revert code <;> decide

/-- The lookup is injective over all 16 pairs (R26). -/
theorem regLookup_injective {c c' : Code} {w w' : Width} (h : regLookup c w = regLookup c' w') :
    c = c' ∧ w = w' :=
  ⟨by simpa using congrArg codeOf h, by simpa using congrArg widthOf h⟩

/-- The register with a given identifier. -/
def regOfId (id : RegId) : Register :=
  regLookup (id.extractLsb' 0 3) (widthOfBit (id.getLsbD 3))

@[simp] theorem regOfId_regIdOf (r : Register) : regOfId (regIdOf r) = r := by
  cases r <;> rfl

@[simp] theorem regIdOf_regOfId (id : RegId) : regIdOf (regOfId id) = id := by
  revert id; decide

/-- Distinct registers have distinct identifiers (R24, R26). -/
theorem regIdOf_injective {r r' : Register} (h : regIdOf r = regIdOf r') : r = r' := by
  simpa using congrArg regOfId h

/-- The display name of the register with an identifier is the ROM's entry there (R74). -/
theorem displayName_regOfId (id : RegId) : displayName (regOfId id) = nameText id := by
  simp [displayName]

end Sys2Proof.Machine
end

