-- ==== Sys2Proof/Laws/Decode.lean ====
section
/-! SUPPORT. Field extraction from assembled bytes and back, what a decode can answer, and the fields of a form. -/

namespace Sys2Proof

/-! ### The opcode byte -/

@[simp] theorem opcodeField_opcodeByte (x d w : Bool) : opcodeField (opcodeByte x d w) = opcMov := by
  cases x <;> cases d <;> cases w <;> rfl

@[simp] theorem dField_opcodeByte (x d w : Bool) : dField (opcodeByte x d w) = d := by
  cases x <;> cases d <;> cases w <;> rfl

@[simp] theorem wField_opcodeByte (x d w : Bool) : wField (opcodeByte x d w) = w := by
  cases x <;> cases d <;> cases w <;> rfl

@[simp] theorem classifyOpcode_opcodeByte (x d w : Bool) : classifyOpcode (opcodeByte x d w) = true := by
  simp [classifyOpcode]

/-- A byte of the MOV class is assembled from its own ignored, direction and width bits (R54). -/
theorem eq_opcodeByte_of_classify {b0 : Byte} (h : classifyOpcode b0 = true) :
    b0 = opcodeByte (b0.getLsbD 2) (dField b0) (wField b0) := by
  revert b0; decide

/-- Flipping `b0[2]` changes no field the decoder reads (R57). -/
theorem fields_flip_bit_two (b0 : Byte) :
    classifyOpcode (b0 ^^^ 0b100#8) = classifyOpcode b0 ∧ dField (b0 ^^^ 0b100#8) = dField b0 ∧
      wField (b0 ^^^ 0b100#8) = wField b0 := by
  revert b0; decide

/-! ### The addressing byte -/

@[simp] theorem modField_addressingByte (reg rm : Code) : modField (addressingByte reg rm) = modReg := by
  revert reg rm; decide

@[simp] theorem regField_addressingByte (reg rm : Code) : regField (addressingByte reg rm) = reg := by
  revert reg rm; decide

@[simp] theorem rmField_addressingByte (reg rm : Code) : rmField (addressingByte reg rm) = rm := by
  revert reg rm; decide

@[simp] theorem isRegisterAddressingMode_addressingByte (reg rm : Code) :
    isRegisterAddressingMode (addressingByte reg rm) = true := by
  simp [isRegisterAddressingMode]

/-- A register-mode byte is assembled from its own reg and rm fields (R55). -/
theorem eq_addressingByte_of_mode {b1 : Byte} (h : isRegisterAddressingMode b1 = true) :
    b1 = addressingByte (regField b1) (rmField b1) := by
  revert b1; decide

/-! ### The decoder -/

/-- A decode rejects with OPCODE_CLASS exactly outside the class (R101). -/
theorem decode_eq_opcodeClass {b0 b1 : Byte} :
    decode b0 b1 = .error .opcodeClass ↔ classifyOpcode b0 = false := by
  unfold decode
  split <;> [split; skip] <;> simp_all

/-- A decode rejects with ADDR_MODE exactly in the class and outside register mode (R102). -/
theorem decode_eq_addrMode {b0 b1 : Byte} :
    decode b0 b1 = .error .addrMode ↔ classifyOpcode b0 = true ∧ isRegisterAddressingMode b1 = false := by
  unfold decode
  split <;> [split; skip] <;> simp_all

/-- The decoder never reports SHORT_INPUT (R103). -/
theorem decode_ne_shortInput {b0 b1 : Byte} : decode b0 b1 ≠ .error .shortInput := by
  unfold decode
  split <;> [split; skip] <;> simp

/-- A decode answers an instruction exactly for an accepted pair, and that instruction is the form `d` and `w` select
over the resolved operands (R63, R86). -/
theorem decode_eq_ok {b0 b1 : Byte} {i : Instr} :
    decode b0 b1 = .ok i ↔ classifyOpcode b0 = true ∧ isRegisterAddressingMode b1 = true ∧
      i = formOf (dField b0) (Machine.widthOfBit (wField b0))
        (decodeRegField b1 (Machine.widthOfBit (wField b0))) (decodeRmField b1 (Machine.widthOfBit (wField b0))) := by
  unfold decode
  split
  · split
    · refine ⟨fun h => ?_, ?_⟩
      · cases h
        exact ⟨‹_›, ‹_›, rfl⟩
      · rintro ⟨-, -, rfl⟩
        rfl
    · simp_all
  · simp_all

/-- A form over two operands of its width class is well formed (R25). -/
theorem wellFormed_formOf {d : Bool} {w : Width} {reg rm : Register} (hreg : Machine.widthOf reg = w)
    (hrm : Machine.widthOf rm = w) : (formOf d w reg rm).WellFormed := by
  subst hreg
  cases d <;> cases h : Machine.widthOf reg <;> simp_all [formOf, Instr.WellFormed, Instr.wellFormed]

/-- The encoding of a form is its fields, assembled (R54, R55). -/
theorem encodeWith_formOf (x d : Bool) (w : Width) (reg rm : Register) :
    encodeWith x (formOf d w reg rm) =
      (opcodeByte x d (Machine.widthBit w), addressingByte (Machine.codeOf reg) (Machine.codeOf rm)) := by
  cases d <;> cases w <;> rfl

/-! ### The table word -/

/-- The two bytes of `W = {b0, b1}` (R68). -/
theorem tableWord_bytes (b0 b1 : Byte) :
    (tableWord b0 b1).extractLsb' 8 8 = b0 ∧ (tableWord b0 b1).extractLsb' 0 8 = b1 := by
  constructor <;> refine BitVec.eq_of_getLsbD_eq fun i hi => ?_
  · have h : (tableWord b0 b1).getLsbD (8 + i) = b0.getLsbD i := 
      (BitVec.getLsbD_append (x := b0) (y := b1) (i := 8 + i)).trans (by simp)
    simp [h, hi]
  · have h : (tableWord b0 b1).getLsbD i = b1.getLsbD i := 
      (BitVec.getLsbD_append (x := b0) (y := b1) (i := i)).trans (by simp [hi])
    simp [h, hi]

/-- The word determines its bytes (R68). -/
theorem tableWord_injective {a b c d : Byte} (h : tableWord a b = tableWord c d) : a = c ∧ b = d := by
  obtain ⟨h1, h2⟩ := tableWord_bytes a b
  obtain ⟨h3, h4⟩ := tableWord_bytes c d
  exact ⟨by rw [← h1, h, h3], by rw [← h2, h, h4]⟩

end Sys2Proof
end

