-- ==== Sys2Proof/Laws/Ops.lean ====
section
/-! SUPPORT. What each shared operation can do, said once: the window, `decode_instruction`, the output ports of an
accepted pair, delivering a decode and raising a fault. -/

namespace Sys2Proof.Machine

/-! ### The front end -/

/-- The window of a buffer with two bytes at its end is those two (R42). -/
@[simp] theorem window_append (B : List Byte) (b0 b1 : Byte) : window (B ++ [b0, b1]) = .ok (b0, b1) := by
  simp [window]

/-- The window is SHORT_INPUT exactly for fewer than two bytes (R44, R103), and has no other error. -/
theorem window_eq_error {B : List Byte} {c : Cause} :
    window B = .error c ↔ B.length < 2 ∧ c = .shortInput := by
  unfold window
  split <;> simp_all [eq_comm]

/-- A window shows the last two bytes of its buffer (R42). -/
theorem window_eq_ok {B : List Byte} {b0 b1 : Byte} :
    window B = .ok (b0, b1) ↔ ∃ pre, B = pre ++ [b0, b1] := by
  constructor
  · intro h
    have hn : 2 ≤ B.length := by
      by_contra hlt
      rw [window_eq_error.mpr ⟨by simpa using hlt, rfl⟩] at h
      cases h
    obtain ⟨pre, last, hB, hl⟩ : ∃ pre last, B = pre ++ last ∧ last.length = 2 :=
      ⟨B.take (B.length - 2), B.drop (B.length - 2), (List.take_append_drop _ _).symm, by simp; omega⟩
    obtain ⟨x, y, rfl⟩ := List.length_eq_two.mp hl
    rw [hB, window_append] at h
    cases h
    exact ⟨pre, hB⟩
  · rintro ⟨pre, rfl⟩
    exact window_append pre b0 b1

/-! ### decode_instruction -/

/-- `decode_instruction` is the decoder followed by the operands of the form, destination first (R86). -/
theorem decodeInstruction_eq_ok {b0 b1 : Byte} {dst src : Register} :
    decodeInstruction b0 b1 = .ok dst src ↔ classifyOpcode b0 = true ∧ isRegisterAddressingMode b1 = true ∧
      (dst, src) = orderOperands (dField b0) (decodeRegField b1 (widthOfBit (wField b0)))
        (decodeRmField b1 (widthOfBit (wField b0))) := by
  unfold decodeInstruction
  split
  · simp_all
  · split
    · simp_all
    · refine ⟨fun h => ?_, ?_⟩
      · cases h
        exact ⟨by simpa using ‹¬(!classifyOpcode b0) = true›, by simpa using ‹¬(!isRegisterAddressingMode b1) = true›, rfl⟩
      · rintro ⟨-, -, h⟩
        simp only [← h]

/-- It faults exactly where and as the decoder rejects (R86). -/
theorem decodeInstruction_eq_fault {b0 b1 : Byte} {c : Cause} :
    decodeInstruction b0 b1 = .fault c ↔ decode b0 b1 = .error c := by
  unfold decodeInstruction decode
  split <;> [skip; split] <;> simp_all

/-! ### Delivering a decode and raising a fault -/

/-- Delivering a decode always completes; it changes the output ports and adds one line, and nothing else. -/
theorem returnOk_eq (d : Bool) (w : Width) (reg rm dst src : Register) (s : State) :
    returnOk d w reg rm dst src s = .next { s with
      outputs := some (acceptedOutputs d w reg rm dst src)
      printed := s.printed ++ [render dst src] } := rfl

/-- Raising a fault is never a next state. -/
theorem raiseFault_ne_next (c : Cause) (t : State) : raiseFault c ≠ .next t := by
  simp [raiseFault]

/-- Raising a fault is never a refusal. -/
theorem raiseFault_ne_refused (c : Cause) (r : Refusal) : raiseFault c ≠ .refused r := by
  simp [raiseFault]

/-- The causes are told apart by their faults. -/
@[simp] theorem faultOf_inj {c c' : Cause} : faultOf c = faultOf c' ↔ c = c' := by
  cases c <;> cases c' <;> simp [faultOf]

/-- The ports of the combinational block for an accepted pair are those of a delivered decode (R22, R86). -/
theorem outputsOf_accepted {b0 b1 : Byte} (h0 : classifyOpcode b0 = true) (h1 : isRegisterAddressingMode b1 = true) :
    outputsOf b0 b1 =
      let w := widthOfBit (wField b0)
      let reg := decodeRegField b1 w
      let rm := decodeRmField b1 w
      acceptedOutputs (dField b0) w reg rm (orderOperands (dField b0) reg rm).1
        (orderOperands (dField b0) reg rm).2 := by
  have h := decodeInstruction_eq_ok.mpr ⟨h0, h1, (Prod.eta (orderOperands (dField b0)
    (decodeRegField b1 (widthOfBit (wField b0))) (decodeRmField b1 (widthOfBit (wField b0)))))⟩
  simp [outputsOf, h, h0, h1, acceptedOutputs, okOf, causeOf]

end Sys2Proof.Machine
end

