-- ==== Sys2Proof/Laws/PerInstr.lean ====
section
/-! SUPPORT. A fact about each form as text: its encoding lies in the MOV class and in register mode, for either value
of the ignored bit. -/

namespace Sys2Proof.Laws.EncodesInTheClass

/-- The instruction's two bytes pass both hardwired comparisons (R63). -/
def Statement (i : Instr) : Prop :=
  ∀ x : Bool, classifyOpcode (encodeWith x i).1 = true ∧ isRegisterAddressingMode (encodeWith x i).2 = true

theorem movRm8R8 (rm reg : Register) : Statement (.movRm8R8 rm reg) := fun _ => by simp [encodeWith]
theorem movR8Rm8 (reg rm : Register) : Statement (.movR8Rm8 reg rm) := fun _ => by simp [encodeWith]
theorem movRm16R16 (rm reg : Register) : Statement (.movRm16R16 rm reg) := fun _ => by simp [encodeWith]
theorem movR16Rm16 (reg rm : Register) : Statement (.movR16Rm16 reg rm) := fun _ => by simp [encodeWith]

end Sys2Proof.Laws.EncodesInTheClass
end

