-- ==== Sys2Proof/Laws/State.lean ====
section
/-! SUPPORT. One lemma for each field under each update of State: a later proof never unfolds a record update. -/

namespace Sys2Proof.Machine

@[simp] theorem State.consume_pending (rest : List (List Byte)) (s : State) : (s.consume rest).pending = rest := rfl
@[simp] theorem State.consume_ports (rest : List (List Byte)) (s : State) : (s.consume rest).ports = s.ports := rfl
@[simp] theorem State.consume_outputs (rest : List (List Byte)) (s : State) : (s.consume rest).outputs = s.outputs := rfl
@[simp] theorem State.consume_printed (rest : List (List Byte)) (s : State) : (s.consume rest).printed = s.printed := rfl

@[simp] theorem State.present_pending (b0 b1 : Byte) (s : State) : (s.present b0 b1).pending = s.pending := rfl
@[simp] theorem State.present_ports (b0 b1 : Byte) (s : State) : (s.present b0 b1).ports = some (b0, b1) := rfl
@[simp] theorem State.present_outputs (b0 b1 : Byte) (s : State) : (s.present b0 b1).outputs = none := rfl
@[simp] theorem State.present_printed (b0 b1 : Byte) (s : State) : (s.present b0 b1).printed = s.printed := rfl

@[simp] theorem State.drive_pending (o : Outputs) (s : State) : (s.drive o).pending = s.pending := rfl
@[simp] theorem State.drive_ports (o : Outputs) (s : State) : (s.drive o).ports = s.ports := rfl
@[simp] theorem State.drive_outputs (o : Outputs) (s : State) : (s.drive o).outputs = some o := rfl
@[simp] theorem State.drive_printed (o : Outputs) (s : State) : (s.drive o).printed = s.printed := rfl

@[simp] theorem State.print_pending (line : String) (s : State) : (s.print line).pending = s.pending := rfl
@[simp] theorem State.print_ports (line : String) (s : State) : (s.print line).ports = s.ports := rfl
@[simp] theorem State.print_outputs (line : String) (s : State) : (s.print line).outputs = s.outputs := rfl
@[simp] theorem State.print_printed (line : String) (s : State) : (s.print line).printed = s.printed ++ [line] := rfl

@[simp] theorem State.withFetchWord_pending (nbits w : Nat) (s : State) :
    (s.withFetchWord nbits w).pending = [(tableBytes nbits w).1, (tableBytes nbits w).2] :: s.pending := rfl
@[simp] theorem State.withFetchWord_ports (nbits w : Nat) (s : State) :
    (s.withFetchWord nbits w).ports = s.ports := rfl
@[simp] theorem State.withFetchWord_outputs (nbits w : Nat) (s : State) :
    (s.withFetchWord nbits w).outputs = s.outputs := rfl
@[simp] theorem State.withFetchWord_printed (nbits w : Nat) (s : State) :
    (s.withFetchWord nbits w).printed = s.printed := rfl

@[simp] theorem State.reset_pending : State.reset.pending = [] := rfl
@[simp] theorem State.reset_ports : State.reset.ports = none := rfl
@[simp] theorem State.reset_outputs : State.reset.outputs = none := rfl
@[simp] theorem State.reset_printed : State.reset.printed = [] := rfl

end Sys2Proof.Machine
end

