-- ==== Sys2Proof/Laws/Step.lean ====
section
/-! SUPPORT. What an instruction and a step can do, said once. -/

namespace Sys2Proof.Machine

/-- Running the form `d` and `w` select delivers its operands in the order `d` gives (R59, R88 to R91). -/
theorem exec_formOf (d : Bool) (w : Width) (reg rm : Register) (s : State) :
    exec (formOf d w reg rm) s =
      returnOk d w reg rm (orderOperands d reg rm).1 (orderOperands d reg rm).2 s := by
  cases d <;> cases w <;> rfl

/-- A step with nothing handed in. -/
theorem step_idle {s : State} (h : s.pending = []) : step s = .next s := by
  simp [step, h]

/-- A step whose buffer has no window. -/
theorem step_short {s : State} {B : List Byte} {rest : List (List Byte)} {c : Cause} (h : s.pending = B :: rest)
    (hw : window B = .error c) : step s = raiseFault c := by
  simp [step, h, hw]

/-- A step whose pair is rejected. -/
theorem step_rejected {s : State} {B : List Byte} {rest : List (List Byte)} {b0 b1 : Byte} {c : Cause}
    (h : s.pending = B :: rest) (hw : window B = .ok (b0, b1)) (hd : decode b0 b1 = .error c) :
    step s = raiseFault c := by
  simp [step, h, hw, hd]

/-- A step whose pair decodes. -/
theorem step_decoded {s : State} {B : List Byte} {rest : List (List Byte)} {b0 b1 : Byte} {i : Instr}
    (h : s.pending = B :: rest) (hw : window B = .ok (b0, b1)) (hd : decode b0 b1 = .ok i) :
    step s = exec i ((s.consume rest).present b0 b1) := by
  simp [step, h, hw, hd]

/-- Everything a step can do: wait, fault with the front end's cause, or deliver the pair's decode. -/
theorem step_cases (s : State) :
    (s.pending = [] ∧ step s = .next s) ∨
    (∃ B rest c, s.pending = B :: rest ∧ frontEnd B = .fault c ∧ step s = .fault (faultOf c)) ∨
    (∃ B rest b0 b1 dst src, s.pending = B :: rest ∧ window B = .ok (b0, b1) ∧
      classifyOpcode b0 = true ∧ isRegisterAddressingMode b1 = true ∧ decodeInstruction b0 b1 = .ok dst src ∧
      step s = .next { pending := rest, ports := some (b0, b1), outputs := some (outputsOf b0 b1),
                       printed := s.printed ++ [render dst src] }) := by
  cases hp : s.pending with
  | nil => exact .inl ⟨rfl, step_idle hp⟩
  | cons B rest =>
    right
    cases hw : window B with
    | error c => exact .inl ⟨B, rest, c, rfl, by simp [frontEnd, hw], step_short hp hw⟩
    | ok p =>
      obtain ⟨b0, b1⟩ := p
      cases hd : decode b0 b1 with
      | error c =>
        exact .inl ⟨B, rest, c, rfl, by simpa [frontEnd, hw] using decodeInstruction_eq_fault.mpr hd,
          step_rejected hp hw hd⟩
      | ok i =>
        obtain ⟨h0, h1, rfl⟩ := decode_eq_ok.mp hd
        refine .inr ⟨B, rest, b0, b1, _, _, rfl, hw, h0, h1, decodeInstruction_eq_ok.mpr ⟨h0, h1, rfl⟩, ?_⟩
        rw [step_decoded hp hw hd, exec_formOf, returnOk_eq, outputsOf_accepted h0 h1]
        rfl

end Sys2Proof.Machine
end

