-- ==== Sys2Proof/Tests/Slice0.lean ====
section
/-! SUPPORT. Small tests, expected values from spec/95_test_vectors.md or worked out from the rule cited, and for each
statement with hypotheses a witness that meets them. -/

namespace Sys2Proof.Tests
open Sys2Proof Sys2Proof.Machine

/-- Power-up with buffers handed in. -/
def handed (buffers : List (List Byte)) : State := { State.reset with pending := buffers }

/-- The next state of an outcome, if it is one. -/
def next? : Step → Option State
  | .next s => some s
  | .fault _ => none
  | .refused _ => none

/-- The fault of an outcome, if it is one. -/
def fault? : Step → Option Fault
  | .next _ => none
  | .fault f => some f
  | .refused _ => none

/-! ### WellFormed refuses each ill-formed operand (R25) -/

theorem test_wellFormed_movRm8R8_wordRm : (Instr.movRm8R8 .ax .cl).wellFormed = false := by decide
theorem test_wellFormed_movRm8R8_wordReg : (Instr.movRm8R8 .cl .ax).wellFormed = false := by decide
theorem test_wellFormed_movR8Rm8_wordReg : (Instr.movR8Rm8 .sp .ah).wellFormed = false := by decide
theorem test_wellFormed_movR8Rm8_wordRm : (Instr.movR8Rm8 .ah .sp).wellFormed = false := by decide
theorem test_wellFormed_movRm16R16_byteRm : (Instr.movRm16R16 .bh .di).wellFormed = false := by decide
theorem test_wellFormed_movRm16R16_byteReg : (Instr.movRm16R16 .di .bh).wellFormed = false := by decide
theorem test_wellFormed_movR16Rm16_byteReg : (Instr.movR16Rm16 .al .ax).wellFormed = false := by decide
theorem test_wellFormed_movR16Rm16_byteRm : (Instr.movR16Rm16 .ax .al).wellFormed = false := by decide

/-! ### Words written out from the encodings -/

/-- 1000 1000, 11 000 001: x = 0, d = 0, w = 0, reg = 000 (AL), rm = 001 (CL); V-EX-9. -/
theorem test_decode_movRm8R8 : decode 0b10001000 0b11000001 = .ok (.movRm8R8 .cl .al) := by decide
/-- 1000 1010, 11 000 001: d = 1, w = 0; V-DI-4. -/
theorem test_decode_movR8Rm8 : decode 0b10001010 0b11000001 = .ok (.movR8Rm8 .al .cl) := by decide
/-- 1000 1001, 11 011 000: d = 0, w = 1, reg = BX, rm = AX; V-EX-7. -/
theorem test_decode_movRm16R16 : decode 0b10001001 0b11011000 = .ok (.movRm16R16 .ax .bx) := by decide
/-- 1000 1011, 11 011 000: d = 1, w = 1; V-EX-8. -/
theorem test_decode_movR16Rm16 : decode 0b10001011 0b11011000 = .ok (.movR16Rm16 .bx .ax) := by decide
/-- x = 1 decodes as x = 0: V-DI-10. -/
theorem test_decode_bit_two_ignored : decode 0x8D 0xD8 = decode 0x89 0xD8 := by decide
/-- V-FT-6: both checks fail, the opcode class is reported. -/
theorem test_decode_priority : decode 0xC1 0x89 = .error .opcodeClass := by decide
/-- V-FT-12. -/
theorem test_decode_memory_mode : decode 0x8B 0x7F = .error .addrMode := by decide
/-- R63's first bytes, the ignored bit at 0: `88 C1`. -/
theorem test_encode_movRm8R8 : encode (.movRm8R8 .cl .al) = (0x88, 0xC1) := by decide
/-- The table numbers `W = {b0, b1}` (R68): the row MOV r16, r/m16 at reg = 110, rm = 111, V-DI-13. -/
theorem test_decodeTableWord_movR16Rm16 : decodeTableWord 16 0x8BF7 = some (.movR16Rm16 .si .di) := by decide

/-! ### Sub-functions -/

/-- V-EB-8, V-RM-17, V-RM-18: wide arguments are refused. -/
theorem test_extractBit_refuses_eight : extractBit 0xFF 8 = .error .bitIndexOutOfRange := by decide
theorem test_regLookupNat_refuses_code : regLookupNat 8 0 = .error .codeOutOfRange := by decide
theorem test_regLookupNat_refuses_width : regLookupNat 0 2 = .error .widthOutOfRange := by decide
/-- Both arguments out of range: the code is reported, the model's choice (log entry 19). -/
theorem test_regLookupNat_code_before_width : regLookupNat 8 2 = .error .codeOutOfRange := by decide
/-- R23: AH is a byte register, SP a word register. -/
theorem test_registerBits : (registerBits .ah, registerBits .sp) = (8, 16) := by decide
/-- V-FD-3, V-FD-4: SP and BP as words, AH and CH as bytes. -/
theorem test_fields_word : (decodeRegField 0xE5 .word, decodeRmField 0xE5 .word) = (.sp, .bp) := by decide
theorem test_fields_byte : (decodeRegField 0xE5 .byte, decodeRmField 0xE5 .byte) = (.ah, .ch) := by decide
/-- V-RM-14: BP's name and ROM word. -/
theorem test_name_bp : (displayName .bp, nameWord (regIdOf .bp)) = ("bp", 0x6270) := by decide

/-! ### Steps: the rendered line and the result ports of each form -/

/-- P2: two moves in one buffer, only the last is decoded; CL from AL. -/
theorem test_step_movRm8R8 :
    (next? (step (handed [[0x89, 0xD9, 0x88, 0xC1]]))).map (fun t => (t.pending, t.printed)) =
      some ([], ["mov cl, al"]) := by decide
/-- P6: AL from AH, with `b0[2] = 1`. -/
theorem test_step_movR8Rm8 :
    ((next? (step (handed [[0x8E, 0xC4]]))).bind (·.outputs)).map (fun o => (o.dstId, o.srcId, o.d, o.w)) =
      some (0, 4, true, false) := by decide
/-- P1: `dst_id = 8`, `src_id = 11`, the names' words, `cause = 0`. -/
theorem test_step_movRm16R16 :
    ((next? (step (handed [[0x89, 0xD8]]))).bind (·.outputs)).map
        (fun o => (o.dstId, o.srcId, o.dstName, o.srcName, o.cause)) =
      some (8, 11, 0x6178, 0x6278, 0) := by decide
/-- V-DI-13: SI from DI, `reg_id = 14`, `rm_id = 15`. -/
theorem test_step_movR16Rm16 :
    ((next? (step (handed [[0x8B, 0xF7]]))).bind (·.outputs)).map (fun o => (o.regId, o.rmId, o.dstId)) =
      some (14, 15, 14) := by decide
/-- P4: the window starts inside an instruction. -/
theorem test_step_unaligned_window :
    (next? (step (handed [[0x89, 0x8B, 0xC0]]))).map (·.printed) = some ["mov ax, ax"] := by decide
/-- P5: the window ends inside an instruction. -/
theorem test_step_opcodeClass : fault? (step (handed [[0x88, 0xC1, 0x89]])) = some .opcodeClass := by decide
/-- V-FT-10: the largest `b1` outside register mode. -/
theorem test_step_addrMode : fault? (step (handed [[0x89, 0xBF]])) = some .addrMode := by decide
/-- P3 and V-FE-1. -/
theorem test_step_shortInput_one : fault? (step (handed [[0x8B]])) = some .shortInput := by decide
theorem test_step_shortInput_none : fault? (step (handed [[]])) = some .shortInput := by decide
/-- V-FT-1: the raw outputs of a pair that faults, `is_mov = 0`, `is_regmode = 1`, `ok = 0`, `fault = 1`, cause 1. -/
theorem test_ports_on_fault :
    ((outputsOf 0x87 0xC0).isMov, (outputsOf 0x87 0xC0).isRegmode, (outputsOf 0x87 0xC0).ok,
      (outputsOf 0x87 0xC0).fault, (outputsOf 0x87 0xC0).cause) = (false, true, false, true, 1) := by decide

/-! ### Witnesses: concrete data that meet the hypotheses of the statements -/

theorem witness_BothOperandsHaveTheWidthClassOfW : decodeInstruction 0x89 0xD8 = .ok .ax .bx := by decide

theorem witness_WideRegisterLookupRefusesAndNeverWraps :
    regLookupNat 8 0 = .error .codeOutOfRange ∧ regLookupNat 7 2 = .error .widthOutOfRange ∧
      regLookupNat 7 1 = .ok .di := by decide

theorem witness_ExtractBitReadsInRangeAndRefusesBeyond :
    extractBit 0x80 7 = .ok true ∧ extractBit 0x80 8 = .error .bitIndexOutOfRange := by decide

/-- Also for RegisterLookupReadsTheTwoTables, whose injectivity clause has the equality of two lookups. -/
theorem witness_RegisterLookupReadsTheTwoTables : regLookup 7 .word = regLookup 7 .word := by decide

theorem witness_DisplayNamesAreDistinctLowercasePairs : displayName .sp = displayName .sp := by decide

/-- Both directions, both widths and both table ends. -/
theorem witness_DirectionOrdersTheOperandsAndWidthSelectsTheTable :
    (handed [[0x88, 0xC7]]).pending = ([] ++ [0x88, 0xC7]) :: [] ∧ accepts 0x88 0xC7 = true ∧
      accepts 0x8F 0xFF = true := by decide

theorem witness_EveryFormCompletesAndChangesOnlyPortsAndText :
    Instr.movRm8R8 .cl .al ∈ [Instr.movRm8R8 .cl .al, .movR8Rm8 .cl .al, .movRm16R16 .cl .al, .movR16Rm16 .cl .al] := by
  decide

theorem witness_SameRegisterTwiceIsAccepted :
    accepts 0x89 0xC0 = true ∧ (0xC0#8).extractLsb' 3 3 = (0xC0#8).extractLsb' 0 3 := by decide

/-- A step that goes on and a step that faults, each with the bit flipped. -/
theorem witness_BitTwoOfTheOpcodeByteIsIgnored :
    (next? (step (handed [[0x89, 0xD8]]))).isSome = true ∧ fault? (step (handed [[0x84, 0xD8]])) = some .opcodeClass := by
  decide

theorem witness_DecoderAndExecAgreeWithDecodeInstruction :
    decode 0x8B 0xC3 = .ok (.movR16Rm16 .ax .bx) ∧ decode 0x8B 0x03 = .error .addrMode := by decide

theorem witness_ExecDrivesThePortsOfTheCombinationalBlock : decode 0x8E 0xC4 = .ok (.movR8Rm8 .al .ah) := by decide

theorem witness_DecodeOfEncodeIsTheInstruction :
    (Instr.movRm8R8 .bh .al).WellFormed ∧ (Instr.movR8Rm8 .ah .ch).WellFormed ∧
      (Instr.movRm16R16 .di .ax).WellFormed ∧ (Instr.movR16Rm16 .sp .bp).WellFormed := by decide

theorem witness_EncodeOfDecodeIsThePair : decode 0x8C 0xFF = .ok (.movRm8R8 .bh .bh) := by decide

/-- The values on either side of the class. -/
theorem witness_OpcodeClassIsRaisedExactlyOutsideTheMovClass :
    (0x87#8).extractLsb' 3 5 ≠ 0b10001#5 ∧ (0x90#8).extractLsb' 3 5 ≠ 0b10001#5 ∧
      (handed [[0x87, 0xC0]]).pending = ([] ++ [0x87, 0xC0]) :: [] := by decide

/-- The three memory modes at their ends. -/
theorem witness_AddrModeIsRaisedExactlyForMemoryModes :
    classifyOpcode 0x89 = true ∧ isRegisterAddressingMode 0x00 = false ∧ isRegisterAddressingMode 0x40 = false ∧
      isRegisterAddressingMode 0x80 = false ∧ isRegisterAddressingMode 0xBF = false ∧
      (handed [[0x89, 0xBF]]).pending = ([] ++ [0x89, 0xBF]) :: [] := by decide

theorem witness_ShortBufferFaultsAtTheBoundaryOnly :
    (handed [[0x8B]]).pending = [0x8B] :: [] ∧ ([0x8B] : List Byte).length < 2 ∧ ¬ ([0x8B, 0xC0] : List Byte).length < 2 := by
  decide

theorem witness_CausesAreReportedByPriority :
    accepts 0x00 0x00 = false ∧ accepts 0x89 0x00 = false ∧ accepts 0x90 0xC0 = false ∧
      (handed [[0x00, 0x00]]).pending = ([] ++ [0x00, 0x00]) :: [] ∧ (handed [[]]).pending = [] :: [] := by decide

theorem witness_StatusOutputsTellTheDecode :
    decodeInstruction 0x90 0xC0 = .fault .opcodeClass ∧ decodeInstruction 0x89 0x80 = .fault .addrMode ∧
      (outputsOf 0x89 0xC0).ok = true := by decide

theorem witness_StepRunsTheDecodedInstruction :
    (handed [[0xFF, 0x89, 0xD8], [0x88, 0xC1]]).pending = [0xFF, 0x89, 0xD8] :: [[0x88, 0xC1]] ∧
      window [0xFF, 0x89, 0xD8] = .ok (0x89, 0xD8) ∧ decode 0x89 0xD8 = .ok (.movRm16R16 .ax .bx) := by decide

theorem witness_HandedInWordIsRunNext : decodeTableWord 16 0x89D8 = some (.movRm16R16 .ax .bx) := by decide

theorem witness_StepWithNothingHandedInChangesNothing : State.reset.pending = [] := by decide

theorem witness_StepOutcomeIsTheFrontEndResult :
    (handed [[0x88, 0xC1]]).pending = [0x88, 0xC1] :: [] ∧ frontEnd [0x88, 0xC1] = .ok .cl .al := by decide

theorem witness_HostRendersDecodesAndNothingOnAFault :
    (handed [[0x88, 0xC1]]).pending = [0x88, 0xC1] :: [] ∧ (next? (step (handed [[0x88, 0xC1]]))).isSome = true ∧
      fault? (step (handed [[0x89, 0x00]])) = some .addrMode := by decide

theorem witness_DecodesAreIndependent :
    (handed [[0x88, 0xC1], []]).pending = [0x88, 0xC1] :: [[]] ∧
      ({ handed [[0x88, 0xC1]] with printed := ["mov ax, bx"] } : State).pending = [0x88, 0xC1] :: [] := by decide

/-- A state with a decode behind it and one pending. -/
theorem witness_EveryStepKeepsInv :
    ∃ s t : State, s.Inv ∧ s.outputs.isSome = true ∧ step s = .next t ∧ t.printed = ["mov ax, bx", "mov cl, al"] := by
  refine ⟨⟨[[0x88, 0xC1]], some (0x89, 0xD8), some (outputsOf 0x89 0xD8), ["mov ax, bx"]⟩, _, ⟨?_, ?_, ?_, ?_⟩, rfl, rfl,
    by decide⟩
  · rintro o ⟨⟩
    exact ⟨_, _, rfl, rfl, by decide⟩
  · intro h
    cases h
  · rintro o ⟨⟩
    exact ⟨.ax, .bx, by decide, by decide, by decide⟩
  · intro l hl
    exact ⟨.ax, .bx, by decide, (List.mem_singleton.mp hl).trans (by decide)⟩

theorem witness_RunIsTheHostRun :
    (handed [[0x89, 0xD8], [0x88, 0xC1]]).pending.length ≤ 3 ∧
      hostRun [] [[0x89, 0xD8], [0x88, 0xC1]] = .normal ["mov ax, bx", "mov cl, al"] ∧
      hostRun [] [[0x89, 0xD8], [0x00], [0x88, 0xC1]] = .aborted .shortInput ["mov ax, bx"] := by decide

theorem witness_ReorderedBuffersPrintTheSameLines :
    (handed [[0x89, 0xD8], [0x88, 0xC1]]).EndsNormally ∧
      (handed [[0x89, 0xD8], [0x88, 0xC1]]).pending.Perm (handed [[0x88, 0xC1], [0x89, 0xD8]]).pending ∧
      (handed [[0x88, 0xC1], [0x89, 0xD8]]).printed = (handed [[0x89, 0xD8], [0x88, 0xC1]]).printed :=
  ⟨⟨_, rfl, rfl⟩, .swap _ _ _, rfl⟩

theorem witness_FaultIsTerminal :
    (handed [[0x89, 0xD8], [0x00], [0x88, 0xC1]]).pending = [[0x89, 0xD8]] ++ [0x00] :: [[0x88, 0xC1]] ∧
      frontEnd [0x89, 0xD8] = .ok .ax .bx ∧ frontEnd [0x00] = .fault .shortInput ∧ ([[0x89, 0xD8]] : List (List Byte)).length < 2 := by
  decide

end Sys2Proof.Tests
end

section
/-! The register set and the width classes (10_state.md R23, R25). -/

namespace Sys2Proof.Machine

/-- Ordering the operands only swaps them, so a width class both have is the class of both results (R59). -/
theorem widthOf_orderOperands {d : Bool} {w : Width} {reg rm : Register} (hreg : widthOf reg = w)
    (hrm : widthOf rm = w) :
    widthOf (orderOperands d reg rm).1 = w ∧ widthOf (orderOperands d reg rm).2 = w := by
  cases d
  · exact ⟨hrm, hreg⟩
  · exact ⟨hreg, hrm⟩

/-- The operands of a decode have the class of its `w`: both are looked up in the table `w` selects (R25). -/
theorem widthOf_of_decodeInstruction_eq_ok {b0 b1 : Byte} {dst src : Register}
    (h : decodeInstruction b0 b1 = .ok dst src) :
    widthOf dst = widthOfBit (wField b0) ∧ widthOf src = widthOfBit (wField b0) := by
  obtain ⟨-, -, hpair⟩ := decodeInstruction_eq_ok.mp h
  have hw := widthOf_orderOperands (d := dField b0) (widthOf_regLookup (regField b1) (widthOfBit (wField b0)))
    (widthOf_regLookup (rmField b1) (widthOfBit (wField b0)))
  rwa [← decodeRegField, ← decodeRmField, ← hpair] at hw

/-- A lookup answers an entry of the table its width selects (R72). -/
theorem regLookup_mem_regTable (code : Code) (w : Width) : regLookup code w ∈ (regTable w).toList :=
  Vector.mem_toList_iff.mpr (Vector.getElem_mem code.isLt)

/-- The table of a width class holds exactly the registers of that class (R25, R70, R71). -/
theorem mem_regTable_iff {r : Register} {w : Width} : r ∈ (regTable w).toList ↔ widthOf r = w := by
  constructor
  · intro hr
    obtain ⟨i, hi, rfl⟩ := Vector.getElem_of_mem (Vector.mem_toList_iff.mp hr)
    exact widthOf_regLookup (BitVec.ofNatLT i hi) w
  · rintro rfl
    simpa using regLookup_mem_regTable (codeOf r) (widthOf r)

/-- Settles O2: the class is bit 3 by definition, a table has one class, and a decode looks both operands up with the
same `w`. -/
theorem bothOperandsHaveTheWidthClassOfW : Obligations.BothOperandsHaveTheWidthClassOfW := by
  unfold Obligations.BothOperandsHaveTheWidthClassOfW
  refine ⟨fun r => rfl, widthOf_regLookup, fun b0 b1 dst src h => ?_⟩
  obtain ⟨hdst, hsrc⟩ := widthOf_of_decodeInstruction_eq_ok h
  exact ⟨hdst, hsrc.trans hdst.symm⟩

/-- Settles O45: the two lists are the two tables, which hold exactly the registers of their class. -/
theorem registerSetIsEightByteAndEightWordRegisters :
    Obligations.RegisterSetIsEightByteAndEightWordRegisters := by
  unfold Obligations.RegisterSetIsEightByteAndEightWordRegisters
  intro byteRegs wordRegs
  have hbyte (r : Register) : r ∈ byteRegs ↔ widthOf r = .byte := mem_regTable_iff (w := .byte)
  have hword (r : Register) : r ∈ wordRegs ↔ widthOf r = .word := mem_regTable_iff (w := .word)
  refine ⟨by decide, fun r => ⟨hbyte r, hword r⟩, fun r => ?_, fun code => ?_⟩
  · rw [hbyte, hword]
    exact registerBits_cases r
  · rw [hbyte, hword]
    exact ⟨widthOf_regLookup code .byte, widthOf_regLookup code .word⟩

end Sys2Proof.Machine
end

section
/-! The front end's fault at the boundary (20_memory.md R44, 60_exceptions.md R103). -/

namespace Sys2Proof.Machine

/-- `decode_instruction` inherits from the decoder that SHORT_INPUT is none of its causes (R44, R103). -/
theorem decodeInstruction_ne_shortInput (b0 b1 : Byte) : decodeInstruction b0 b1 ≠ .fault .shortInput :=
  fun h => decode_ne_shortInput (decodeInstruction_eq_fault.mp h)

/-- A front end with no window passes the window's cause on, with no decode (R44). -/
theorem frontEnd_of_window_error {B : List Byte} {c : Cause} (hw : window B = .error c) :
    frontEnd B = .fault c := by
  simp [frontEnd, hw]

/-- A front end with a window answers the decode of that pair (R42). -/
theorem frontEnd_of_window_ok {B : List Byte} {b0 b1 : Byte} (hw : window B = .ok (b0, b1)) :
    frontEnd B = decodeInstruction b0 b1 := by
  simp [frontEnd, hw]

/-- SHORT_INPUT can only come from the window, since no decode has it (R44). -/
theorem frontEnd_eq_shortInput_iff {B : List Byte} : frontEnd B = .fault .shortInput ↔ B.length < 2 := by
  constructor
  · intro hf
    cases hw : window B with
    | error c => exact (window_eq_error.mp hw).1
    | ok p =>
      rw [frontEnd_of_window_ok hw] at hf
      exact absurd hf (decodeInstruction_ne_shortInput p.1 p.2)
  · exact fun hB => frontEnd_of_window_error (window_eq_error.mpr ⟨hB, rfl⟩)

/-- A step faults exactly as the front end does on the buffer it consumes (R42, R100). -/
theorem step_eq_fault_iff_frontEnd {s : State} {B : List Byte} {rest : List (List Byte)} {c : Cause}
    (hp : s.pending = B :: rest) : step s = .fault (faultOf c) ↔ frontEnd B = .fault c := by
  obtain ⟨hnil, -⟩ | ⟨B', rest', c', hp', hf, hs⟩ | ⟨B', rest', b0, b1, dst, src, hp', hw, -, -, hd, hs⟩ :=
    step_cases s
  · simp [hp] at hnil
  · obtain ⟨rfl, rfl⟩ := List.cons.inj (hp.symm.trans hp')
    simp [hs, hf]
  · obtain ⟨rfl, rfl⟩ := List.cons.inj (hp.symm.trans hp')
    simp [hs, frontEnd_of_window_ok hw, hd]

/-- Settles O29: the step faults as the front end does, and of the front end's two parts, window and decode, only the
window has SHORT_INPUT. -/
theorem shortBufferFaultsAtTheBoundaryOnly : Obligations.ShortBufferFaultsAtTheBoundaryOnly := by
  unfold Obligations.ShortBufferFaultsAtTheBoundaryOnly
  refine ⟨fun s B rest hp => ?_, fun B hB => ⟨frontEnd_eq_shortInput_iff.mpr hB, fun p hw => ?_⟩,
    decodeInstruction_ne_shortInput⟩
  · exact (step_eq_fault_iff_frontEnd (c := .shortInput) hp).trans frontEnd_eq_shortInput_iff
  · have herr : window B = .error .shortInput := window_eq_error.mpr ⟨hB, rfl⟩
    simp [herr] at hw

end Sys2Proof.Machine
end

section
/-! The operands of an accepted pair: `w` selects their table and `d` orders them (30_encoding.md R59 to R61). -/

namespace Sys2Proof.Machine

/-- The two components of the ordered pair, each chosen by the direction bit (R59, R61). -/
theorem orderOperands_eq_ite (d : Bool) (reg rm : Register) :
    orderOperands d reg rm = (if d then reg else rm, if d then rm else reg) := by
  cases d <;> rfl

/-- `decode_instruction` answers the ordered pair for every accepted encoding (R63, R86). -/
theorem decodeInstruction_of_accepts {b0 b1 : Byte} (ha : accepts b0 b1 = true) :
    decodeInstruction b0 b1 =
      .ok (if dField b0 then decodeRegField b1 (widthOfBit (wField b0)) else decodeRmField b1 (widthOfBit (wField b0)))
        (if dField b0 then decodeRmField b1 (widthOfBit (wField b0)) else decodeRegField b1 (widthOfBit (wField b0))) := by
  obtain ⟨h0, h1⟩ := Bool.and_eq_true_iff.mp ha
  exact decodeInstruction_eq_ok.mpr ⟨h0, h1, (orderOperands_eq_ite ..).symm⟩

/-- The width bit of a first byte heads the identifier of every register it looks up (R24, R60). -/
theorem regIdOf_regLookup_widthOfBit (b0 : Byte) (code : Code) :
    regIdOf (regLookup code (widthOfBit (wField b0))) = b0.extractLsb' 0 1 ++ code := by
  have hbit : BitVec.ofBool (wField b0) = b0.extractLsb' 0 1 := by
    revert b0; decide
  rw [regIdOf_regLookup, widthBit_widthOfBit, hbit]

/-- The result ports carry the identifiers of a decode's pair (R86). -/
theorem outputsOf_resultIds {b0 b1 : Byte} {dst src : Register} (hd : decodeInstruction b0 b1 = .ok dst src) :
    (outputsOf b0 b1).dstId = regIdOf dst ∧ (outputsOf b0 b1).srcId = regIdOf src := by
  simp [outputsOf, hd]

/-- A step whose window `decode_instruction` accepts drives the combinational block's levels and prints the pair. -/
theorem step_of_decodeInstruction_eq_ok {s : State} {B : List Byte} {rest : List (List Byte)} {b0 b1 : Byte}
    {dst src : Register} (hp : s.pending = B :: rest) (hw : window B = .ok (b0, b1))
    (hd : decodeInstruction b0 b1 = .ok dst src) :
    step s = .next { pending := rest, ports := some (b0, b1), outputs := some (outputsOf b0 b1),
                     printed := s.printed ++ [render dst src] } := by
  obtain ⟨h0, h1, hpair⟩ := decodeInstruction_eq_ok.mp hd
  obtain ⟨rfl, rfl⟩ := Prod.ext_iff.mp hpair
  rw [step_decoded hp hw (decode_eq_ok.mpr ⟨h0, h1, rfl⟩), exec_formOf, returnOk_eq, outputsOf_accepted h0 h1]
  rfl

/-- Settles O12: the pair is `decode_instruction`'s, and the next state's levels are the combinational block's, whose
identifier ports are those of the two lookups and of the ordered pair. -/
theorem directionOrdersTheOperandsAndWidthSelectsTheTable :
    Obligations.DirectionOrdersTheOperandsAndWidthSelectsTheTable := by
  unfold Obligations.DirectionOrdersTheOperandsAndWidthSelectsTheTable
  intro s rest B b0 b1 hp ha w reg rm dst src
  have hd : decodeInstruction b0 b1 = .ok dst src := decodeInstruction_of_accepts ha
  obtain ⟨hdst, hsrc⟩ := outputsOf_resultIds hd
  exact ⟨hd, _, outputsOf b0 b1, step_of_decodeInstruction_eq_ok hp (window_append B b0 b1) hd, rfl, rfl, rfl,
    regIdOf_regLookup_widthOfBit b0 (b1.extractLsb' 3 3), regIdOf_regLookup_widthOfBit b0 (b1.extractLsb' 0 3),
    rfl, rfl, hdst, hsrc⟩

end Sys2Proof.Machine
end

section
/-! The Register Model's two lookups, each against the contents of its table (40_register_model.md R70 to R72, R74). -/

namespace Sys2Proof.Machine

/-- At the place of a code a table has the register that the lookup answers for that code and width (R72). -/
theorem getElem?_regTable (code : Code) (w : Width) :
    (regTable w).toList[code.toNat]? = some (regLookup code w) :=
  Vector.getElem?_toList.trans (Vector.getElem?_eq_getElem code.isLt)

/-- At the place of an identifier the name ROM has the name that the name port answers for it (R74). -/
theorem getElem?_nameTable (id : RegId) : nameTable.toList[id.toNat]? = some (nameText id) :=
  Vector.getElem?_toList.trans (Vector.getElem?_eq_getElem id.isLt)

/-- Settles O1: the contents are read off the two tables, the lookup is an entry of one of them, and its identifier and
injectivity are the laws of the Register Model. -/
theorem registerLookupReadsTheTwoTables : Obligations.RegisterLookupReadsTheTwoTables := by
  unfold Obligations.RegisterLookupReadsTheTwoTables
  have hentry (code : Code) : byteTable.toList[code.toNat]? = some (regLookup code .byte) ∧
      wordTable.toList[code.toNat]? = some (regLookup code .word) :=
    ⟨getElem?_regTable code .byte, getElem?_regTable code .word⟩
  exact ⟨rfl, rfl, rfl, rfl, hentry, regIdOf_regLookup, fun _ _ _ _ => regLookup_injective, rfl, rfl⟩

/-- Settles O3: the contents are read off the name ROM, every identifier has its entry there, and `display_name` is by
definition the entry at the register's identifier. -/
theorem displayNamesAreTheLowercaseRegisterNames : Obligations.DisplayNamesAreTheLowercaseRegisterNames := by
  unfold Obligations.DisplayNamesAreTheLowercaseRegisterNames
  exact ⟨rfl, getElem?_nameTable, fun _ => rfl, rfl, rfl⟩

end Sys2Proof.Machine
end

section
/-! The four MOV forms, once for every direction and width (41_instruction_decoder.md R88 to R91). -/

namespace Sys2Proof.Machine

/-- The pattern, the ignored bit and `dw` as one 2-bit field, as R88 to R91 print byte 0. -/
theorem append_eq_opcodeByte (x d : Bool) (w : Width) :
    0b10001#5 ++ BitVec.ofBool x ++ (BitVec.ofBool d ++ BitVec.ofBool (widthBit w)) =
      opcodeByte x d (widthBit w) := by
  cases x <;> cases d <;> cases w <;> rfl

/-- Ordering two lookups in one table is a lookup of the ordered codes (R59, R61). -/
theorem orderOperands_regLookup (d : Bool) (w : Width) (reg rm : Code) :
    orderOperands d (regLookup reg w) (regLookup rm w) =
      (regLookup (if d then reg else rm) w, regLookup (if d then rm else reg) w) := by
  cases d <;> rfl

/-- An assembled pair decodes to the form of its `d` and `w` over its two codes, looked up with `w` (R63). -/
theorem decode_assembled (x d : Bool) (w : Width) (reg rm : Code) :
    decode (opcodeByte x d (widthBit w)) (addressingByte reg rm) =
      .ok (formOf d w (regLookup reg w) (regLookup rm w)) := by
  simp [decode_eq_ok, decodeRegField, decodeRmField]

/-- An assembled pair delivers its two codes in the order of its `d`, looked up with `w` (R86). -/
theorem decodeInstruction_assembled (x d : Bool) (w : Width) (reg rm : Code) :
    decodeInstruction (opcodeByte x d (widthBit w)) (addressingByte reg rm) =
      .ok (regLookup (if d then reg else rm) w) (regLookup (if d then rm else reg) w) := by
  simp [decodeInstruction_eq_ok, decodeRegField, decodeRmField, orderOperands_regLookup]

/-- The 13 levels of an accepted decode as R88 to R91 give them, each identifier being `{w, code}` (R22, R24). -/
def codeOutputs (d : Bool) (w : Width) (reg rm dst src : Code) : Outputs where
  isMov := true
  isRegmode := true
  d := d
  w := widthBit w
  regId := BitVec.ofBool (widthBit w) ++ reg
  rmId := BitVec.ofBool (widthBit w) ++ rm
  ok := true
  fault := false
  cause := 0
  dstId := BitVec.ofBool (widthBit w) ++ dst
  srcId := BitVec.ofBool (widthBit w) ++ src
  dstName := nameWord (BitVec.ofBool (widthBit w) ++ dst)
  srcName := nameWord (BitVec.ofBool (widthBit w) ++ src)

/-- Operands looked up in one table drive the levels of their codes (R22, R24). -/
theorem acceptedOutputs_regLookup (d : Bool) (w : Width) (reg rm dst src : Code) :
    acceptedOutputs d w (regLookup reg w) (regLookup rm w) (regLookup dst w) (regLookup src w) =
      codeOutputs d w reg rm dst src := by
  simp [acceptedOutputs, codeOutputs, regIdOf_regLookup, causeNone]

/-- The host's line with the mnemonic spelled out (R94, R95). -/
theorem render_eq (dst src : Register) :
    render dst src = "mov " ++ displayName dst ++ ", " ++ displayName src := rfl

/-- R88 to R91 in one, the bytes written as those rules print them: a pair of any direction and width names its ordered
operands, and its form drives the levels of its codes, prints its line and changes nothing else. -/
theorem mov_delivers (x d : Bool) (w : Width) (reg rm : Code) (s : State) :
    let b0 : Byte := 0b10001#5 ++ BitVec.ofBool x ++ (BitVec.ofBool d ++ BitVec.ofBool (widthBit w))
    let b1 : Byte := 0b11#2 ++ reg ++ rm
    let dst := if d then reg else rm
    let src := if d then rm else reg
    decodeInstruction b0 b1 = .ok (regLookup dst w) (regLookup src w) ∧
    decode b0 b1 = .ok (formOf d w (regLookup reg w) (regLookup rm w)) ∧
    exec (formOf d w (regLookup reg w) (regLookup rm w)) s = .next { s with
      outputs := some (codeOutputs d w reg rm dst src)
      printed := s.printed ++
        ["mov " ++ displayName (regLookup dst w) ++ ", " ++ displayName (regLookup src w)] } := by
  rw [append_eq_opcodeByte]
  refine ⟨decodeInstruction_assembled x d w reg rm, decode_assembled x d w reg rm, ?_⟩
  rw [exec_formOf, orderOperands_regLookup, returnOk_eq, acceptedOutputs_regLookup, render_eq]

/-- Settles O13: `mov_delivers` with d = 0 and w = 0, and the example evaluated. -/
theorem movRm8R8DeliversRmThenReg : Obligations.MovRm8R8DeliversRmThenReg := by
  unfold Obligations.MovRm8R8DeliversRmThenReg
  exact ⟨fun x reg rm s => mov_delivers x false .byte reg rm s, rfl, rfl⟩

/-- Settles O14: `mov_delivers` with d = 1 and w = 0, and the example evaluated. -/
theorem movR8Rm8DeliversRegThenRm : Obligations.MovR8Rm8DeliversRegThenRm := by
  unfold Obligations.MovR8Rm8DeliversRegThenRm
  exact ⟨fun x reg rm s => mov_delivers x true .byte reg rm s, rfl, rfl⟩

/-- Settles O15: `mov_delivers` with d = 0 and w = 1, and the example evaluated. -/
theorem movRm16R16DeliversRmThenReg : Obligations.MovRm16R16DeliversRmThenReg := by
  unfold Obligations.MovRm16R16DeliversRmThenReg
  exact ⟨fun x reg rm s => mov_delivers x false .word reg rm s, rfl, rfl⟩

/-- Settles O16: `mov_delivers` with d = 1 and w = 1, and the example evaluated. -/
theorem movR16Rm16DeliversRegThenRm : Obligations.MovR16Rm16DeliversRegThenRm := by
  unfold Obligations.MovR16Rm16DeliversRegThenRm
  exact ⟨fun x reg rm s => mov_delivers x true .word reg rm s, rfl, rfl⟩

end Sys2Proof.Machine
end

section
/-! What the host renders, step by step: a line for a decode, and an aborted run for a fault
(41_instruction_decoder.md R66, R95, 60_exceptions.md R109). -/

namespace Sys2Proof.Machine

/-- The host's run is aborted by the first buffer's fault, with the lines it had (R109). -/
theorem hostRun_cons_fault {B : List Byte} {c : Cause} (printed : List String) (rest : List (List Byte))
    (hf : frontEnd B = .fault c) : hostRun printed (B :: rest) = .aborted c printed := by
  simp [hostRun, hf]

/-- A step that takes a buffer and goes on has a front end result and adds exactly its rendering (R95). -/
theorem printed_of_step_eq_next {s t : State} {B : List Byte} {rest : List (List Byte)}
    (hp : s.pending = B :: rest) (ht : step s = .next t) :
    ∃ dst src, frontEnd B = .ok dst src ∧ t.printed = s.printed ++ [render dst src] := by
  obtain ⟨hnil, -⟩ | ⟨_, _, _, -, -, hs⟩ | ⟨_, _, _, _, dst, src, hp', hw, -, -, hd, hs⟩ := step_cases s
  · simp [hp] at hnil
  · cases hs.symm.trans ht
  · cases hp.symm.trans hp'
    cases hs.symm.trans ht
    exact ⟨dst, src, (frontEnd_of_window_ok hw).trans hd, rfl⟩

/-- A step that faults has a cause, and the host's run from there is aborted with it and renders nothing (R66, R109). -/
theorem hostRun_of_step_eq_fault {s : State} {f : Fault} (h : step s = .fault f) :
    ∃ c, f = faultOf c ∧ hostRun s.printed s.pending = .aborted c s.printed := by
  obtain ⟨-, hs⟩ | ⟨B, rest, c, hp, hf, hs⟩ | ⟨_, _, _, _, _, _, -, -, -, -, -, hs⟩ := step_cases s
  · cases hs.symm.trans h
  · cases hs.symm.trans h
    exact ⟨c, rfl, hp ▸ hostRun_cons_fault s.printed rest hf⟩
  · cases hs.symm.trans h

/-- Settles O37: a step and the host's run both follow the front end's result, which is a rendered pair where the step
goes on and an abort where it faults. -/
theorem hostRendersDecodesAndNothingOnAFault : Obligations.HostRendersDecodesAndNothingOnAFault := by
  unfold Obligations.HostRendersDecodesAndNothingOnAFault
  exact ⟨render_eq, fun _ _ _ _ hp ht => printed_of_step_eq_next hp ht, fun _ _ h => hostRun_of_step_eq_fault h,
    rfl, rfl, rfl⟩

end Sys2Proof.Machine
end

section
/-! The sub-functions of the Instruction Decoder: the two hardwired comparisons and the two field decoders
(41_instruction_decoder.md R81 to R84). -/

namespace Sys2Proof.Machine

/-- The opcode field is the byte without its low three bits (R54). -/
theorem toNat_opcodeField (b0 : Byte) : (opcodeField b0).toNat = b0.toNat / 8 := by
  rw [opcodeField, BitVec.extractLsb'_toNat, Nat.shiftRight_eq_div_pow]
  omega

/-- The mode field is the byte without its low six bits (R55). -/
theorem toNat_modField (b1 : Byte) : (modField b1).toNat = b1.toNat / 64 := by
  rw [modField, BitVec.extractLsb'_toNat, Nat.shiftRight_eq_div_pow]
  omega

/-- The top five bits match the pattern exactly in the block of eight bytes that starts at `0x88` (R56, R81). -/
theorem classifyOpcode_iff {b0 : Byte} : classifyOpcode b0 = true ↔ 0x88#8 ≤ b0 ∧ b0 ≤ 0x8F#8 := by
  have hfield : classifyOpcode b0 = true ↔ b0.toNat / 8 = 17 := by
    rw [classifyOpcode, beq_iff_eq, ← BitVec.toNat_inj, toNat_opcodeField]
    rfl
  rw [hfield]
  bv_omega

/-- The top two bits are both set exactly from `0xC0` up (R58, R82). -/
theorem isRegisterAddressingMode_iff {b1 : Byte} : isRegisterAddressingMode b1 = true ↔ 0xC0#8 ≤ b1 := by
  have hfield : isRegisterAddressingMode b1 = true ↔ b1.toNat / 64 = 3 := by
    rw [isRegisterAddressingMode, beq_iff_eq, ← BitVec.toNat_inj, toNat_modField]
    rfl
  rw [hfield]
  bv_omega

/-- As a number, a byte outside the class is below 136 or above 143 (R81). -/
theorem not_classifyOpcode_ofNat_iff {n : Nat} (hn : n < 256) :
    (!classifyOpcode (BitVec.ofNat 8 n)) = true ↔ n < 136 ∨ 143 < n := by
  rw [Bool.not_eq_true', ← Bool.not_eq_true, classifyOpcode_iff]
  bv_omega

/-- Every byte of a stretch beside the block of eight is counted as outside the class (R81). -/
theorem countP_not_classifyOpcode_range' {a k : Nat} (hside : a + k ≤ 136 ∨ 144 ≤ a ∧ a + k ≤ 256) :
    (List.range' a k).countP (fun n => !classifyOpcode (BitVec.ofNat 8 n)) = k := by
  refine (List.countP_eq_length.mpr fun n hn => ?_).trans List.length_range'
  rw [List.mem_range'_1] at hn
  exact (not_classifyOpcode_ofNat_iff (by omega)).mpr (by omega)

/-- Below the block of eight lie 136 bytes, above it 112, and none of its own is counted (R81). -/
theorem countP_not_classifyOpcode :
    (List.range 256).countP (fun n => !classifyOpcode (BitVec.ofNat 8 n)) = 248 := by
  have hsplit : List.range 256 = List.range' 0 136 ++ (List.range' 136 8 ++ List.range' 144 112) := by
    rw [List.range'_append_1, List.range'_append_1, List.range_eq_range']
  have hinside : (List.range' 136 8).countP (fun n => !classifyOpcode (BitVec.ofNat 8 n)) = 0 := by decide
  rw [hsplit, List.countP_append, List.countP_append, hinside,
    countP_not_classifyOpcode_range' (by omega), countP_not_classifyOpcode_range' (by omega)]

/-- Settles O8: the comparison and the port are the definitions, and the comparison bounds the byte's quotient by 8. -/
theorem classifierMatchesTheTopFiveBits : Obligations.ClassifierMatchesTheTopFiveBits := by
  unfold Obligations.ClassifierMatchesTheTopFiveBits
  exact ⟨fun _ => rfl, fun _ _ => rfl, fun _ => classifyOpcode_iff, countP_not_classifyOpcode, rfl, rfl⟩

/-- Settles O9: the comparison and the port are the definitions, and the comparison bounds the byte's quotient by 64. -/
theorem modeCheckMatchesTheTopTwoBits : Obligations.ModeCheckMatchesTheTopTwoBits := by
  unfold Obligations.ModeCheckMatchesTheTopTwoBits
  exact ⟨fun _ => rfl, fun _ _ => rfl, fun _ => isRegisterAddressingMode_iff, rfl, rfl⟩

/-- Settles O10: each field decoder is by definition the lookup at its field, and each port the identifier of what it
answers, with no look at the mode bits. -/
theorem fieldDecodersResolveRegAndRm : Obligations.FieldDecodersResolveRegAndRm := by
  unfold Obligations.FieldDecodersResolveRegAndRm
  exact ⟨fun _ _ => ⟨rfl, rfl⟩, fun _ _ => ⟨rfl, rfl⟩, rfl, rfl⟩

end Sys2Proof.Machine
end

section
/-! The decoder's two faults, each with the comparison that fails, its cause code and the step it stops
(60_exceptions.md R101, R102). -/

namespace Sys2Proof.Machine

/-- The classifier is false exactly when the top five bits differ from the pattern (R56, R81). -/
theorem classifyOpcode_eq_false_iff {b0 : Byte} : classifyOpcode b0 = false ↔ b0.extractLsb' 3 5 ≠ 0b10001#5 :=
  beq_eq_false_iff_ne

/-- The modes other than the register mode are the three memory modes (R58). -/
theorem ne_modReg_iff {m : BitVec 2} : m ≠ modReg ↔ m = 0b00#2 ∨ m = 0b01#2 ∨ m = 0b10#2 := by
  revert m; decide

/-- The mode check is false exactly in a memory mode (R58, R82). -/
theorem isRegisterAddressingMode_eq_false_iff {b1 : Byte} : isRegisterAddressingMode b1 = false ↔
    b1.extractLsb' 6 2 = 0b00#2 ∨ b1.extractLsb' 6 2 = 0b01#2 ∨ b1.extractLsb' 6 2 = 0b10#2 :=
  beq_eq_false_iff_ne.trans ne_modReg_iff

/-- `decode_instruction` reports OPCODE_CLASS exactly where the decoder does (R101). -/
theorem decodeInstruction_eq_opcodeClass_iff {b0 b1 : Byte} :
    decodeInstruction b0 b1 = .fault .opcodeClass ↔ classifyOpcode b0 = false :=
  decodeInstruction_eq_fault.trans decode_eq_opcodeClass

/-- `decode_instruction` reports ADDR_MODE exactly where the decoder does (R102). -/
theorem decodeInstruction_eq_addrMode_iff {b0 b1 : Byte} : decodeInstruction b0 b1 = .fault .addrMode ↔
    classifyOpcode b0 = true ∧ isRegisterAddressingMode b1 = false :=
  decodeInstruction_eq_fault.trans decode_eq_addrMode

/-- The cause port of a pair that faults carries the code of its cause (R22). -/
theorem outputsOf_cause_of_fault {b0 b1 : Byte} {c : Cause} (hd : decodeInstruction b0 b1 = .fault c) :
    (outputsOf b0 b1).cause = causeCode c :=
  congrArg causeOf hd

/-- A step whose buffer ends in a pair faults exactly as the decode of that pair (R42, R100). -/
theorem step_eq_fault_iff_decodeInstruction {s : State} {rest : List (List Byte)} {B : List Byte} {b0 b1 : Byte}
    {c : Cause} (hp : s.pending = (B ++ [b0, b1]) :: rest) :
    step s = .fault (faultOf c) ↔ decodeInstruction b0 b1 = .fault c := by
  rw [step_eq_fault_iff_frontEnd hp, frontEnd_of_window_ok (window_append B b0 b1)]

/-- Settles O27: the fault is the classifier's failure, at the decode, at the ports and at the step. -/
theorem opcodeClassIsRaisedExactlyOutsideTheMovClass :
    Obligations.OpcodeClassIsRaisedExactlyOutsideTheMovClass := by
  unfold Obligations.OpcodeClassIsRaisedExactlyOutsideTheMovClass
  have hdecode (b0 b1 : Byte) :
      decodeInstruction b0 b1 = .fault .opcodeClass ↔ b0.extractLsb' 3 5 ≠ 0b10001#5 :=
    decodeInstruction_eq_opcodeClass_iff.trans classifyOpcode_eq_false_iff
  refine ⟨hdecode, fun b0 b1 hne => ?_, countP_not_classifyOpcode, fun s rest B b0 b1 hp => ?_⟩
  · have hclass : classifyOpcode b0 = false := classifyOpcode_eq_false_iff.mpr hne
    exact ⟨hclass, outputsOf_cause_of_fault ((hdecode b0 b1).mpr hne), hclass⟩
  · exact (step_eq_fault_iff_decodeInstruction (c := .opcodeClass) hp).trans (hdecode b0 b1)

/-- Settles O28: the fault is the mode check's failure inside the class, at the decode, at the ports and at the step. -/
theorem addrModeIsRaisedExactlyForMemoryModes : Obligations.AddrModeIsRaisedExactlyForMemoryModes := by
  unfold Obligations.AddrModeIsRaisedExactlyForMemoryModes
  refine ⟨fun b0 b1 => ?_, fun b0 b1 hclass hmode => ?_, fun s rest B b0 b1 hp => ?_⟩
  · rw [decodeInstruction_eq_addrMode_iff, isRegisterAddressingMode_eq_false_iff]
  · have hd : decodeInstruction b0 b1 = .fault .addrMode := decodeInstruction_eq_addrMode_iff.mpr ⟨hclass, hmode⟩
    exact ⟨hd, outputsOf_cause_of_fault hd, hmode⟩
  · exact (step_eq_fault_iff_decodeInstruction (c := .addrMode) hp).trans decodeInstruction_eq_addrMode_iff

end Sys2Proof.Machine
end

section
/-! Encoding and decoding are inverse on well-formed instructions, up to the ignored bit `b0[2]` (30_encoding.md
section 1). -/

namespace Sys2Proof.Machine

/-- A register of a table's width class is the table's entry at its code (R26). -/
theorem regLookup_codeOf {r : Register} {w : Width} (hr : widthOf r = w) : regLookup (codeOf r) w = r := by
  rw [← hr, regLookup_codeOf_widthOf]

/-- Operands of the form's own width are the lookups of their codes (R26, R60). -/
theorem formOf_eq_formOf_regLookup (d : Bool) {w : Width} {reg rm : Register} (hreg : widthOf reg = w)
    (hrm : widthOf rm = w) : formOf d w reg rm = formOf d w (regLookup (codeOf reg) w) (regLookup (codeOf rm) w) := by
  rw [regLookup_codeOf hreg, regLookup_codeOf hrm]

/-- The well-formed instructions are the forms over two lookups in the table of their own width (R25, R60). -/
theorem wellFormed_iff_formOf_regLookup {i : Instr} :
    i.WellFormed ↔ ∃ d w reg rm, i = formOf d w (regLookup reg w) (regLookup rm w) := by
  constructor
  · intro h
    cases i <;> simp only [Instr.WellFormed, Instr.wellFormed, Bool.and_eq_true, beq_iff_eq] at h
    case movRm8R8 => exact ⟨_, _, _, _, formOf_eq_formOf_regLookup false h.2 h.1⟩
    case movR8Rm8 => exact ⟨_, _, _, _, formOf_eq_formOf_regLookup true h.1 h.2⟩
    case movRm16R16 => exact ⟨_, _, _, _, formOf_eq_formOf_regLookup false h.2 h.1⟩
    case movR16Rm16 => exact ⟨_, _, _, _, formOf_eq_formOf_regLookup true h.1 h.2⟩
  · rintro ⟨d, w, reg, rm, rfl⟩
    exact wellFormed_formOf (widthOf_regLookup reg w) (widthOf_regLookup rm w)

/-- The encoding of a form over two lookups is assembled from the two codes (R54, R55). -/
theorem encodeWith_formOf_regLookup (x d : Bool) (w : Width) (reg rm : Code) :
    encodeWith x (formOf d w (regLookup reg w) (regLookup rm w)) =
      (opcodeByte x d (widthBit w), addressingByte reg rm) := by
  rw [encodeWith_formOf, codeOf_regLookup, codeOf_regLookup]

/-- Settles O24: a well-formed instruction is a form over two lookups, whose encoding is assembled from the codes and
decodes to their lookups again. -/
theorem decodeOfEncodeIsTheInstruction : Obligations.DecodeOfEncodeIsTheInstruction := by
  unfold Obligations.DecodeOfEncodeIsTheInstruction
  intro x i hwf
  obtain ⟨d, w, reg, rm, rfl⟩ := wellFormed_iff_formOf_regLookup.mp hwf
  rw [encodeWith_formOf_regLookup]
  exact decode_assembled x d w reg rm

/-- Settles O25: a decode answers a form over two lookups, and both bytes of an accepted pair are assembled from their
own fields. -/
theorem encodeOfDecodeIsThePair : Obligations.EncodeOfDecodeIsThePair := by
  unfold Obligations.EncodeOfDecodeIsThePair
  intro b0 b1 i hd
  obtain ⟨h0, h1, rfl⟩ := decode_eq_ok.mp hd
  refine ⟨wellFormed_iff_formOf_regLookup.mpr ⟨_, _, regField b1, rmField b1, rfl⟩, ?_⟩
  rw [decodeRegField, decodeRmField, encodeWith_formOf_regLookup, widthBit_widthOfBit,
    ← eq_opcodeByte_of_classify h0, ← eq_addressingByte_of_mode h1]

/-- Settles O20: with `d = 1` the reg code is the destination and with `d = 0` the rm code, so swapping the codes
undoes the flip. -/
theorem swappedEncodingsNameTheSameOperands : Obligations.SwappedEncodingsNameTheSameOperands := by
  unfold Obligations.SwappedEncodingsNameTheSameOperands
  refine ⟨fun x x' w reg rm => ?_, rfl, rfl⟩
  rw [← widthBit_widthOfBit w, decodeInstruction_assembled, decodeInstruction_assembled]
  rfl

/-- Settles O26: each word evaluated. -/
theorem wordsFromTheSpecDecode : Obligations.WordsFromTheSpecDecode := by
  unfold Obligations.WordsFromTheSpecDecode
  exact ⟨rfl, rfl, rfl, rfl, rfl, rfl, rfl, rfl⟩

end Sys2Proof.Machine
end

section
/-! The invariant of ports and text (10_state.md R20, R22, R25, 41_instruction_decoder.md R95). -/

namespace Sys2Proof.Machine

/-- The invariant holds where nothing is presented, sampled or printed. -/
theorem inv_reset : State.reset.Inv where
  sampled _ ho := by simp at ho
  decoded _ := rfl
  lastLine _ ho := by simp at ho
  lines _ hl := by simp at hl

/-- A decode establishes the first three clauses of the invariant whatever came before; the fourth needs it of the
earlier lines. -/
theorem inv_of_decodeInstruction_eq_ok {b0 b1 : Byte} {dst src : Register} {printed : List String}
    (rest : List (List Byte)) (hd : decodeInstruction b0 b1 = .ok dst src)
    (hlines : ∀ l ∈ printed, ∃ dst src, widthOf dst = widthOf src ∧ l = render dst src) :
    State.Inv { pending := rest, ports := some (b0, b1), outputs := some (outputsOf b0 b1),
                printed := printed ++ [render dst src] } where
  sampled := by
    rintro _ ⟨⟩
    obtain ⟨h0, h1, -⟩ := decodeInstruction_eq_ok.mp hd
    exact ⟨b0, b1, rfl, rfl, by simp [accepts, h0, h1]⟩
  decoded := by
    intro ho
    cases ho
  lastLine := by
    rintro _ ⟨⟩
    obtain ⟨hdst, hsrc⟩ := outputsOf_resultIds hd
    exact ⟨dst, src, hdst, hsrc, List.getLast?_concat⟩
  lines := by
    intro l hl
    obtain hl | hl := List.mem_append.mp hl
    · exact hlines l hl
    · obtain ⟨hdst, hsrc⟩ := widthOf_of_decodeInstruction_eq_ok hd
      exact ⟨dst, src, hdst.trans hsrc.symm, List.mem_singleton.mp hl⟩

/-- Settles O40: a step that goes on waits, which changes nothing, or delivers a decode, which sets ports, levels and
line together. -/
theorem everyStepKeepsInv : Obligations.EveryStepKeepsInv := by
  unfold Obligations.EveryStepKeepsInv
  intro s t hinv ht
  obtain ⟨-, hs⟩ | ⟨_, _, _, -, -, hs⟩ | ⟨_, rest, _, _, _, _, -, -, -, -, hd, hs⟩ := step_cases s
  · cases hs.symm.trans ht
    exact hinv
  · cases hs.symm.trans ht
  · cases hs.symm.trans ht
    exact inv_of_decodeInstruction_eq_ok rest hd hinv.lines

/-- Settles O39: the reset fields are read off, and nothing is there for the invariant to speak of. -/
theorem powerUpPresentsNothingAndMeetsInv : Obligations.PowerUpPresentsNothingAndMeetsInv := by
  unfold Obligations.PowerUpPresentsNothingAndMeetsInv
  exact ⟨State.reset_pending, State.reset_ports, State.reset_outputs, State.reset_printed, inv_reset⟩

end Sys2Proof.Machine
end

section
/-! The decoder against opcode_table.json: its four rows are one for each direction and width (30_encoding.md R63,
R68). -/

namespace Sys2Proof.Machine

/-- The row of a direction and width: byte 0 with the ignored bit at 0 and masked out, byte 1 in register mode with its
codes masked out. -/
def tableRow (d : Bool) (w : Width) : OpcodeRow where
  matchBits := tableWord (opcodeByte false d (widthBit w)) 0xC0#8
  mask := tableWord 0xFB#8 0xC0#8
  form := formOf d w

/-- The four rows of the table are those of the four directions and widths. -/
theorem opcodeRows_eq_map :
    opcodeRows = [(false, Width.byte), (true, .byte), (false, .word), (true, .word)].map fun p => tableRow p.1 p.2 :=
  rfl

/-- Every direction and width has its row, and no other row stands in the table. -/
theorem mem_opcodeRows_iff {row : OpcodeRow} : row ∈ opcodeRows ↔ ∃ d w, row = tableRow d w := by
  rw [opcodeRows_eq_map, List.mem_map]
  constructor
  · rintro ⟨p, -, rfl⟩
    exact ⟨p.1, p.2, rfl⟩
  · rintro ⟨d, w, rfl⟩
    exact ⟨(d, w), by cases d <;> cases w <;> decide, rfl⟩

/-- Masking a word masks its two bytes. -/
theorem tableWord_and (a b c d : Byte) : tableWord a b &&& tableWord c d = tableWord (a &&& c) (b &&& d) :=
  BitVec.and_append

/-- The table's mask drops no bit of byte 0 that the decoder reads (R57, R68). -/
theorem fields_and_mask (b0 : Byte) :
    classifyOpcode (b0 &&& 0xFB#8) = classifyOpcode b0 ∧ dField (b0 &&& 0xFB#8) = dField b0 ∧
      wField (b0 &&& 0xFB#8) = wField b0 := by
  revert b0; decide

/-- The mask drops the ignored bit (R57, R68). -/
theorem opcodeByte_and_mask (x d w : Bool) : opcodeByte x d w &&& 0xFB#8 = opcodeByte false d w := by
  cases x <;> cases d <;> cases w <;> rfl

/-- Byte 0 under the mask is that of a direction and width exactly in the class and with these fields (R54, R57). -/
theorem and_mask_eq_opcodeByte_iff {b0 : Byte} {d w : Bool} :
    b0 &&& 0xFB#8 = opcodeByte false d w ↔ classifyOpcode b0 = true ∧ dField b0 = d ∧ wField b0 = w := by
  constructor
  · intro h
    obtain ⟨h0, hd, hw⟩ := fields_and_mask b0
    rw [h] at h0 hd hw
    exact ⟨by simpa using h0.symm, by simpa using hd.symm, by simpa using hw.symm⟩
  · rintro ⟨h0, rfl, rfl⟩
    exact (congrArg (· &&& 0xFB#8) (eq_opcodeByte_of_classify h0)).trans (opcodeByte_and_mask ..)

/-- Byte 1 under the mask is the register mode without codes exactly when the mode check holds (R55, R82). -/
theorem and_mask_eq_modReg_iff {b1 : Byte} : b1 &&& 0xC0#8 = 0xC0#8 ↔ isRegisterAddressingMode b1 = true := by
  revert b1; decide

/-- A row covers a pair exactly when the pair is accepted and has the row's direction and width (R63, R68). -/
theorem covers_tableRow_iff {d : Bool} {w : Width} {b0 b1 : Byte} :
    (tableRow d w).covers (tableWord b0 b1) = true ↔
      (classifyOpcode b0 = true ∧ dField b0 = d ∧ wField b0 = widthBit w) ∧ isRegisterAddressingMode b1 = true := by
  rw [OpcodeRow.covers, beq_iff_eq, tableRow, tableWord_and, ← and_mask_eq_opcodeByte_iff, ← and_mask_eq_modReg_iff]
  refine ⟨tableWord_injective, ?_⟩
  rintro ⟨h0, h1⟩
  rw [h0, h1]

/-- A word determines the row that covers it: all rows have one mask, and the matched bits show direction and width. -/
theorem tableRow_unique {d d' : Bool} {w w' : Width} {W : TableWord} (h : (tableRow d w).covers W = true)
    (h' : (tableRow d' w').covers W = true) : d = d' ∧ w = w' := by
  have hmatch : (tableRow d w).matchBits = (tableRow d' w').matchBits :=
    (beq_iff_eq.mp h).symm.trans (beq_iff_eq.mp h')
  obtain ⟨h0, -⟩ := tableWord_injective hmatch
  exact ⟨by simpa using congrArg dField h0, by simpa using congrArg (widthOfBit ∘ wField) h0⟩

/-- Settles O21: a pair is covered by the row of its own direction and width exactly when the decoder accepts it, and
the form is that row's. -/
theorem decoderFollowsTheOpcodeTable : Obligations.DecoderFollowsTheOpcodeTable := by
  unfold Obligations.DecoderFollowsTheOpcodeTable
  refine ⟨fun b0 b1 i => ?_, ?_⟩
  · rw [decode_eq_ok]
    constructor
    · rintro ⟨h0, h1, rfl⟩
      exact ⟨tableRow (dField b0) (widthOfBit (wField b0)), mem_opcodeRows_iff.mpr ⟨_, _, rfl⟩,
        covers_tableRow_iff.mpr ⟨⟨h0, rfl, (widthBit_widthOfBit _).symm⟩, h1⟩, rfl⟩
    · rintro ⟨_, hrow, hcovers, rfl⟩
      obtain ⟨d, w, rfl⟩ := mem_opcodeRows_iff.mp hrow
      obtain ⟨⟨h0, rfl, hw⟩, h1⟩ := covers_tableRow_iff.mp hcovers
      rw [hw, widthOfBit_widthBit]
      exact ⟨h0, h1, rfl⟩
  · rw [opcodeRows_eq_map, List.pairwise_map]
    refine List.Pairwise.imp (R := (· ≠ ·)) (fun hne W ⟨h, h'⟩ => ?_) (by decide)
    obtain ⟨hd, hw⟩ := tableRow_unique h h'
    exact hne (Prod.ext hd hw)

end Sys2Proof.Machine
end

section
/-! The output ports as functions of the pair, for accepted and faulting pairs (10_state.md R22, 41_instruction_decoder.md
R86, R87). -/

namespace Sys2Proof.Machine

/-- Settles O11: four raw outputs are their fields by definition, and the two identifiers are `{w, code}`, with no look
at whether the pair is accepted. -/
theorem rawOutputsAreDrivenForEveryPair : Obligations.RawOutputsAreDrivenForEveryPair := by
  unfold Obligations.RawOutputsAreDrivenForEveryPair
  exact fun b0 b1 => ⟨rfl, rfl, rfl, rfl, regIdOf_regLookup_widthOfBit b0 (regField b1),
    regIdOf_regLookup_widthOfBit b0 (rmField b1)⟩

/-- `ok` is acceptance (R22, R63). -/
theorem outputsOf_ok (b0 b1 : Byte) : (outputsOf b0 b1).ok = accepts b0 b1 := by
  rw [outputsOf]
  cases hd : decodeInstruction b0 b1 with
  | ok dst src =>
    obtain ⟨h0, h1, -⟩ := decodeInstruction_eq_ok.mp hd
    simp [okOf, accepts, h0, h1]
  | fault c =>
    refine (Bool.eq_false_iff.mpr fun ha => ?_).symm
    rw [decodeInstruction_of_accepts ha] at hd
    cases hd

/-- On an accepted decode `cause` is NONE and the name ports carry the ROM words of the result ports (R22, R93). -/
theorem outputsOf_of_ok {b0 b1 : Byte} (hok : (outputsOf b0 b1).ok = true) :
    (outputsOf b0 b1).cause = causeNone ∧ (outputsOf b0 b1).dstName = nameWord (outputsOf b0 b1).dstId ∧
      (outputsOf b0 b1).srcName = nameWord (outputsOf b0 b1).srcId := by
  rw [outputsOf_ok] at hok
  simp [outputsOf, decodeInstruction_of_accepts hok, causeOf]

/-- `cause` never carries the code of SHORT_INPUT: no decode has that fault (R44, R103). -/
theorem outputsOf_cause_ne_shortInput (b0 b1 : Byte) : (outputsOf b0 b1).cause ≠ causeCode .shortInput := by
  cases hd : decodeInstruction b0 b1 with
  | ok dst src => simp [outputsOf, hd, causeOf, causeNone, causeCode]
  | fault c =>
    rw [outputsOf_cause_of_fault hd]
    cases c with
    | shortInput => exact absurd hd (decodeInstruction_ne_shortInput b0 b1)
    | opcodeClass => decide
    | addrMode => decide

/-- Settles O31: `ok` is acceptance, `cause` the code of a cause the decode can have, and the names follow `ok`. -/
theorem statusOutputsTellTheDecode : Obligations.StatusOutputsTellTheDecode := by
  unfold Obligations.StatusOutputsTellTheDecode
  refine fun b0 b1 => ⟨outputsOf_ok b0 b1, rfl, fun c hd => ?_, outputsOf_cause_ne_shortInput b0 b1, outputsOf_of_ok⟩
  rw [outputsOf_cause_of_fault hd]
  cases c <;> rfl

/-- What a decoded instruction does, said through the pair it came from: from every state it drives the combinational
block's levels for the pair and prints the pair of `decode_instruction` (R22, R86, R95). -/
theorem exec_of_decode_eq_ok {b0 b1 : Byte} {i : Instr} (hd : decode b0 b1 = .ok i) :
    ∃ dst src, decodeInstruction b0 b1 = .ok dst src ∧
      ∀ s : State, exec i s = .next { s with
        outputs := some (outputsOf b0 b1)
        printed := s.printed ++ [render dst src] } := by
  obtain ⟨h0, h1, rfl⟩ := decode_eq_ok.mp hd
  refine ⟨_, _, decodeInstruction_eq_ok.mpr ⟨h0, h1, Prod.eta _⟩, fun s => ?_⟩
  rw [exec_formOf, returnOk_eq, outputsOf_accepted h0 h1]

/-- Settles O23: the line's two names are read at the identifiers on the result ports. -/
theorem execDrivesThePortsOfTheCombinationalBlock : Obligations.ExecDrivesThePortsOfTheCombinationalBlock := by
  unfold Obligations.ExecDrivesThePortsOfTheCombinationalBlock
  intro b0 b1 i s hd
  obtain ⟨dst, src, hpair, hexec⟩ := exec_of_decode_eq_ok hd
  obtain ⟨hdst, hsrc⟩ := outputsOf_resultIds hpair
  rw [hexec, hdst, hsrc]
  rfl

/-- Settles O22: the two rejections agree, a decoded form looks both operands up with its own width, and it prints the
pair of `decode_instruction`. -/
theorem decoderAndExecAgreeWithDecodeInstruction : Obligations.DecoderAndExecAgreeWithDecodeInstruction := by
  unfold Obligations.DecoderAndExecAgreeWithDecodeInstruction
  refine ⟨fun b0 b1 c => decodeInstruction_eq_fault.symm, fun b0 b1 i hd => ?_⟩
  obtain ⟨-, -, hform⟩ := decode_eq_ok.mp hd
  obtain ⟨dst, src, hpair, hexec⟩ := exec_of_decode_eq_ok hd
  refine ⟨?_, dst, src, hpair, fun s => ⟨_, hexec s, rfl⟩⟩
  rw [hform]
  exact wellFormed_formOf (widthOf_regLookup ..) (widthOf_regLookup ..)

/-- Each form, its operands written destination first, delivers them in that order (R63, R88 to R91). -/
theorem exec_eq_returnOk {a b : Register} {i : Instr}
    (hi : i ∈ [Instr.movRm8R8 a b, .movR8Rm8 a b, .movRm16R16 a b, .movR16Rm16 a b]) :
    ∃ d w reg rm, ∀ s, exec i s = returnOk d w reg rm a b s := by
  simp only [List.mem_cons, List.not_mem_nil, or_false] at hi
  obtain rfl | rfl | rfl | rfl := hi
  · exact ⟨false, .byte, b, a, fun _ => rfl⟩
  · exact ⟨true, .byte, a, b, fun _ => rfl⟩
  · exact ⟨false, .word, b, a, fun _ => rfl⟩
  · exact ⟨true, .word, a, b, fun _ => rfl⟩

/-- Settles O17: every form delivers a decode, and that changes the output ports and the text only. -/
theorem everyFormCompletesAndChangesOnlyPortsAndText :
    Obligations.EveryFormCompletesAndChangesOnlyPortsAndText := by
  unfold Obligations.EveryFormCompletesAndChangesOnlyPortsAndText
  intro a b s i hi
  obtain ⟨d, w, reg, rm, hexec⟩ := exec_eq_returnOk hi
  exact ⟨_, acceptedOutputs d w reg rm a b, (hexec s).trans (returnOk_eq ..), rfl, rfl, rfl, rfl, rfl, rfl, rfl, rfl,
    rfl⟩

/-- Settles O18: equal codes look up one register, which is both operands in either order. -/
theorem sameRegisterTwiceIsAccepted : Obligations.SameRegisterTwiceIsAccepted := by
  unfold Obligations.SameRegisterTwiceIsAccepted
  intro b0 b1 ha hcodes
  have hsame (w : Width) : decodeRegField b1 w = decodeRmField b1 w := congrArg (regLookup · w) hcodes
  refine ⟨decodeRmField b1 (widthOfBit (wField b0)), ?_⟩
  rw [decodeInstruction_of_accepts ha, hsame, ite_self]

end Sys2Proof.Machine
end

section
/-! Display names, ROM words, and the functions with wider arguments than the wires (40_register_model.md R73 to R76,
41_instruction_decoder.md R80). -/

namespace Sys2Proof.Machine

/-- No name stands twice in the name ROM, so a name determines its identifier (R76). -/
theorem nameText_injective {id id' : RegId} (h : nameText id = nameText id') : id = id' := by
  have hnodup : nameTable.toList.Nodup := by decide
  have hentry : nameTable.toList[id.toNat]? = nameTable.toList[id'.toNat]? := by
    rw [getElem?_nameTable, getElem?_nameTable, h]
  exact BitVec.eq_of_toNat_eq ((List.getElem?_inj (by simpa using id.isLt) hnodup).mp hentry)

/-- A display name is an entry of the name ROM (R74). -/
theorem displayName_mem_nameTable (r : Register) : displayName r ∈ nameTable.toList :=
  List.mem_of_getElem? (getElem?_nameTable (regIdOf r))

/-- Settles O4: identifiers tell registers apart and names tell identifiers apart; the form of a name is checked on the
16 entries. -/
theorem displayNamesAreDistinctLowercasePairs : Obligations.DisplayNamesAreDistinctLowercasePairs := by
  unfold Obligations.DisplayNamesAreDistinctLowercasePairs
  have hform : ∀ name ∈ nameTable.toList, name.toList.length = 2 ∧ name.toList.all Char.isLower = true := by decide
  exact ⟨fun _ _ h => regIdOf_injective (nameText_injective h), fun r => hform _ (displayName_mem_nameTable r)⟩

/-- At the place of an identifier the ROM has the word that the name port answers for it (R75). -/
theorem getElem?_nameRom (id : RegId) : nameRom.toList[id.toNat]? = some (nameWord id) :=
  Vector.getElem?_toList.trans (Vector.getElem?_eq_getElem id.isLt)

/-- Settles O5: the ROM is the name table spelled entry by entry. -/
theorem nameRomWordsSpellTheNames : Obligations.NameRomWordsSpellTheNames := by
  unfold Obligations.NameRomWordsSpellTheNames
  have hrom : nameTable.toList.map wordOfName = nameRom.toList.map some := by decide
  intro id
  have hentry := congrArg (·[id.toNat]?) hrom
  rwa [List.getElem?_map, List.getElem?_map, getElem?_nameTable, getElem?_nameRom, Option.map_some, Option.map_some,
    Option.some.injEq] at hentry

/-- Settles O6: the range check on the code comes first, and past it the width chooses a table or none. -/
theorem wideRegisterLookupRefusesAndNeverWraps : Obligations.WideRegisterLookupRefusesAndNeverWraps := by
  unfold Obligations.WideRegisterLookupRefusesAndNeverWraps
  refine ⟨fun code => ?_, fun code width hc => ?_, fun code width hc hw => ?_⟩
  · simp [regLookupNat, code.isLt]
  · exact dif_neg (by omega)
  · obtain ⟨n, rfl⟩ := Nat.exists_eq_add_of_le' hw
    simp [regLookupNat, hc]

/-- Settles O7: the range check decides, and bits 1 and 0 are the `d` and `w` fields. -/
theorem extractBitReadsInRangeAndRefusesBeyond : Obligations.ExtractBitReadsInRangeAndRefusesBeyond := by
  unfold Obligations.ExtractBitReadsInRangeAndRefusesBeyond
  exact ⟨fun _ _ hp => if_pos hp, fun _ _ hp => if_neg (by omega), fun _ => ⟨rfl, rfl⟩, rfl, rfl⟩

end Sys2Proof.Machine
end

section
/-! One step over the buffer it takes: what the front end gives is what the step does (20_memory.md section 2,
60_exceptions.md sections 1 and 3). -/

namespace Sys2Proof.Machine

/-- The front end answers a pair exactly when its window shows two bytes that decode to it (R42). -/
theorem frontEnd_eq_ok_iff {B : List Byte} {dst src : Register} :
    frontEnd B = .ok dst src ↔ ∃ b0 b1, window B = .ok (b0, b1) ∧ decodeInstruction b0 b1 = .ok dst src := by
  constructor
  · intro hf
    cases hw : window B with
    | error c => simp [frontEnd_of_window_error hw] at hf
    | ok p => exact ⟨p.1, p.2, rfl, (frontEnd_of_window_ok hw).symm.trans hf⟩
  · rintro ⟨b0, b1, hw, hd⟩
    exact (frontEnd_of_window_ok hw).trans hd

/-- On a pair from the front end a step consumes the buffer, presents its bytes and prints the pair's line (R41, R95). -/
theorem step_of_frontEnd_eq_ok {s : State} {B : List Byte} {rest : List (List Byte)} {dst src : Register}
    (hp : s.pending = B :: rest) (hf : frontEnd B = .ok dst src) :
    ∃ t, step s = .next t ∧ t.pending = rest ∧ t.ports.isSome = true ∧
      t.printed = s.printed ++ [render dst src] := by
  obtain ⟨b0, b1, hw, hd⟩ := frontEnd_eq_ok_iff.mp hf
  exact ⟨_, step_of_decodeInstruction_eq_ok hp hw hd, rfl, rfl, rfl⟩

/-- No step refuses: it waits, faults or goes on. -/
theorem step_ne_refused (s : State) (r : Refusal) : step s ≠ .refused r := by
  obtain ⟨-, hs⟩ | ⟨_, _, _, -, -, hs⟩ | ⟨_, _, _, _, _, _, -, -, -, -, -, hs⟩ := step_cases s <;> simp [hs]

/-- Settles O36: each outcome of the front end has its step. -/
theorem stepOutcomeIsTheFrontEndResult : Obligations.StepOutcomeIsTheFrontEndResult := by
  unfold Obligations.StepOutcomeIsTheFrontEndResult
  refine ⟨step_ne_refused, fun s B rest hp => ⟨fun c => step_eq_fault_iff_frontEnd hp, fun dst src hf =>
    step_of_frontEnd_eq_ok hp hf⟩⟩

/-- Settles O30: outside the class the opcode is reported, and a pair in the class that is not accepted fails the mode
check. -/
theorem causesAreReportedByPriority : Obligations.CausesAreReportedByPriority := by
  unfold Obligations.CausesAreReportedByPriority
  refine ⟨fun s B rest hp hlen => ?_, fun s B rest b0 b1 hp ha => ?_, rfl⟩
  · exact (step_eq_fault_iff_frontEnd (c := .shortInput) hp).mpr (frontEnd_eq_shortInput_iff.mpr hlen)
  · by_cases hop : b0.extractLsb' 3 5 = 0b10001#5
    · have h0 : classifyOpcode b0 = true := beq_iff_eq.mpr hop
      have h1 : isRegisterAddressingMode b1 = false := by simpa [accepts, h0] using ha
      rw [if_pos hop]
      exact (step_eq_fault_iff_decodeInstruction (c := .addrMode) hp).mpr
        (decodeInstruction_eq_addrMode_iff.mpr ⟨h0, h1⟩)
    · rw [if_neg hop]
      exact (step_eq_fault_iff_decodeInstruction (c := .opcodeClass) hp).mpr
        (decodeInstruction_eq_opcodeClass_iff.mpr (classifyOpcode_eq_false_iff.mpr hop))

/-- A step looks at its buffer through the window only (R42, R43). -/
theorem step_eq_of_window_eq {B B' : List Byte} (s : State) (rest : List (List Byte)) (hw : window B = window B') :
    step { s with pending := B :: rest } = step { s with pending := B' :: rest } := by
  simp only [step, hw, State.consume]

/-- Settles O32: two buffers with the same two bytes at the end have the same window. -/
theorem onlyTheLastTwoBytesOfABufferCount : Obligations.OnlyTheLastTwoBytesOfABufferCount := by
  unfold Obligations.OnlyTheLastTwoBytesOfABufferCount
  exact ⟨window_append, fun s rest B B' b0 b1 =>
    step_eq_of_window_eq s rest ((window_append B b0 b1).trans (window_append B' b0 b1).symm)⟩

/-- Settles O33: consuming the buffer and presenting its pair set exactly these three fields. -/
theorem stepRunsTheDecodedInstruction : Obligations.StepRunsTheDecodedInstruction := by
  unfold Obligations.StepRunsTheDecodedInstruction
  exact fun _ _ _ _ _ _ hp hw hd => step_decoded hp hw hd

/-- The two bytes of a 16-bit table word, as numbers (R68). -/
theorem tableBytes_sixteen (w : Nat) : tableBytes 16 w = (BitVec.ofNat 8 (w / 256), BitVec.ofNat 8 w) := by
  refine Prod.ext (BitVec.eq_of_toNat_eq ?_) (BitVec.eq_of_toNat_eq ?_)
  · simp [tableBytes, Nat.shiftRight_eq_div_pow]
    omega
  · simp [tableBytes]

/-- A table word stands for the instruction its two bytes decode to (R53, R68). -/
theorem decode_of_decodeTableWord {nbits w : Nat} {i : Instr} (h : decodeTableWord nbits w = some i) :
    decode (tableBytes nbits w).1 (tableBytes nbits w).2 = .ok i := by
  unfold decodeTableWord at h
  split at h
  · cases hd : decode (tableBytes nbits w).1 (tableBytes nbits w).2 <;> simp_all
  · cases h

/-- Settles O34: the word's two bytes are the whole buffer in front, so they are its window and decode to `i`. -/
theorem handedInWordIsRunNext : Obligations.HandedInWordIsRunNext := by
  unfold Obligations.HandedInWordIsRunNext
  intro s w i h
  have hd := decode_of_decodeTableWord h
  rw [step_decoded (State.withFetchWord_pending 16 w s) (window_append [] _ _) hd, tableBytes_sixteen]
  rfl

/-- Settles O35: a step with no buffer to take is idle. -/
theorem stepWithNothingHandedInChangesNothing : Obligations.StepWithNothingHandedInChangesNothing := by
  unfold Obligations.StepWithNothingHandedInChangesNothing
  exact fun _ hp => step_idle hp

end Sys2Proof.Machine
end

section
/-! Bit 2 of the opcode byte is read by nothing that decodes (30_encoding.md R57). -/

namespace Sys2Proof.Machine

/-- The decoder does not read `b0[2]` (R57). -/
theorem decode_flip_bit_two (b0 b1 : Byte) : decode (b0 ^^^ 0b100#8) b1 = decode b0 b1 := by
  obtain ⟨hclass, hd, hw⟩ := fields_flip_bit_two b0
  simp only [decode, hclass, hd, hw]

/-- `decode_instruction` does not read `b0[2]` (R57). -/
theorem decodeInstruction_flip_bit_two (b0 b1 : Byte) :
    decodeInstruction (b0 ^^^ 0b100#8) b1 = decodeInstruction b0 b1 := by
  obtain ⟨hclass, hd, hw⟩ := fields_flip_bit_two b0
  simp only [decodeInstruction, hclass, hd, hw]

/-- On an accepted pair no output port shows `b0[2]`; on a fault the four free values may (R57, R108). -/
theorem outputsOf_flip_bit_two {b0 b1 : Byte} {dst src : Register} (hok : decodeInstruction b0 b1 = .ok dst src) :
    outputsOf (b0 ^^^ 0b100#8) b1 = outputsOf b0 b1 := by
  obtain ⟨hclass, hd, hw⟩ := fields_flip_bit_two b0
  simp only [outputsOf, decodeInstruction_flip_bit_two, hok, hclass, hd, hw]

/-- Settles O19: both bytes decode alike, so both steps deliver the same pair with the same levels or stop with the same
cause. -/
theorem bitTwoOfTheOpcodeByteIsIgnored : Obligations.BitTwoOfTheOpcodeByteIsIgnored := by
  unfold Obligations.BitTwoOfTheOpcodeByteIsIgnored
  intro b0 b1 s rest B
  refine ⟨decode_flip_bit_two b0 b1, decodeInstruction_flip_bit_two b0 b1, ?_⟩
  have hflip := decodeInstruction_flip_bit_two b0 b1
  cases hd : decodeInstruction b0 b1 with
  | ok dst src =>
    rw [step_of_decodeInstruction_eq_ok rfl (window_append B _ b1) hd,
      step_of_decodeInstruction_eq_ok rfl (window_append B _ b1) (hflip.trans hd), outputsOf_flip_bit_two hd]
    refine ⟨?_, ?_⟩
    · rintro _ ⟨⟩
      rfl
    · rintro _ ⟨⟩
  | fault c =>
    rw [(step_eq_fault_iff_decodeInstruction rfl).mpr hd,
      (step_eq_fault_iff_decodeInstruction rfl).mpr (hflip.trans hd)]
    refine ⟨?_, fun _ h => h⟩
    rintro _ ⟨⟩

end Sys2Proof.Machine
end

section
/-! Whole runs: over accepted buffers a run goes on and prints a line each, and a fault ends it (60_exceptions.md R109,
R110, 20_memory.md R48). -/

namespace Sys2Proof.Machine

/-- A run whose first step goes on. -/
theorem run_succ_of_step_eq_next {s t : State} (k : Nat) (hs : step s = .next t) :
    Host.Core.run core (k + 1) s = Host.Core.run core k t := by
  have hcore : core.step s = .next t := hs
  simp only [Host.Core.run, hcore]

/-- A run whose first step faults is over. -/
theorem run_succ_of_step_eq_fault {s : State} {f : Fault} (k : Nat) (hs : step s = .fault f) :
    Host.Core.run core (k + 1) s = .fault f := by
  have hcore : core.step s = .fault f := hs
  simp only [Host.Core.run, hcore]

/-- A run with nothing handed in stays where it is. -/
theorem run_idle {s : State} (k : Nat) (hp : s.pending = []) : Host.Core.run core k s = .next s := by
  induction k with
  | zero => rfl
  | succ k ih => exact (run_succ_of_step_eq_next k (step_idle hp)).trans ih

/-- The front end answers a pair for the buffer. -/
def Delivers (B : List Byte) : Prop :=
  ∃ dst src, frontEnd B = .ok dst src

/-- A buffer delivers a pair exactly when it ends in an accepted encoding (R42, R63). -/
theorem delivers_iff {B : List Byte} :
    Delivers B ↔ ∃ pre b0 b1, B = pre ++ [b0, b1] ∧ accepts b0 b1 = true := by
  constructor
  · rintro ⟨dst, src, hf⟩
    obtain ⟨b0, b1, hw, hd⟩ := frontEnd_eq_ok_iff.mp hf
    obtain ⟨pre, hB⟩ := window_eq_ok.mp hw
    obtain ⟨h0, h1, -⟩ := decodeInstruction_eq_ok.mp hd
    exact ⟨pre, b0, b1, hB, by simp [accepts, h0, h1]⟩
  · rintro ⟨pre, b0, b1, rfl, ha⟩
    exact ⟨_, _, (frontEnd_of_window_ok (window_append pre b0 b1)).trans (decodeInstruction_of_accepts ha)⟩

/-- The line the host renders for a buffer, if the front end answers a pair (R66, R95). -/
def lineOf (B : List Byte) : Option String :=
  match frontEnd B with
  | .ok dst src => some (render dst src)
  | .fault _ => none

theorem lineOf_of_frontEnd_eq_ok {B : List Byte} {dst src : Register} (hf : frontEnd B = .ok dst src) :
    lineOf B = some (render dst src) := by
  simp [lineOf, hf]

/-- The lines of a stretch are the first buffer's and those of the others (R95). -/
theorem filterMap_lineOf_cons {B : List Byte} {dst src : Register} (rest : List (List Byte))
    (hf : frontEnd B = .ok dst src) :
    (B :: rest).filterMap lineOf = render dst src :: rest.filterMap lineOf :=
  List.filterMap_cons_some (lineOf_of_frontEnd_eq_ok hf)

/-- A run passes a stretch of buffers that deliver pairs, one step and one line each, and goes on with what is pending
behind them. -/
theorem run_passes {s : State} {done rest : List (List Byte)} (k : Nat) (hp : s.pending = done ++ rest)
    (hdone : ∀ D ∈ done, Delivers D) :
    ∃ t : State, Host.Core.run core (done.length + k) s = Host.Core.run core k t ∧ t.pending = rest ∧
      t.printed = s.printed ++ done.filterMap lineOf := by
  induction done generalizing s with
  | nil => exact ⟨s, by simp, hp, by simp⟩
  | cons D done ih =>
    obtain ⟨⟨dst, src, hf⟩, hdone⟩ := List.forall_mem_cons.mp hdone
    obtain ⟨u, hs, hu, -, hline⟩ := step_of_frontEnd_eq_ok hp hf
    obtain ⟨t, hrun, hrest, hprinted⟩ := ih hu hdone
    refine ⟨t, ?_, hrest, ?_⟩
    · rw [List.length_cons, Nat.add_right_comm, run_succ_of_step_eq_next _ hs, hrun]
    · rw [hprinted, hline, filterMap_lineOf_cons done hf, List.append_assoc, List.singleton_append]

/-- A run over buffers that all deliver pairs ends with none left and a line for each. -/
theorem run_of_forall_delivers {s : State} {k : Nat} (hk : s.pending.length ≤ k) (hall : ∀ B ∈ s.pending, Delivers B) :
    ∃ t : State, Host.Core.run core k s = .next t ∧ t.pending = [] ∧
      t.printed = s.printed ++ s.pending.filterMap lineOf := by
  obtain ⟨j, rfl⟩ := Nat.exists_eq_add_of_le hk
  obtain ⟨t, hrun, hrest, hprinted⟩ := run_passes j (List.append_nil _).symm hall
  exact ⟨t, hrun.trans (run_idle j hrest), hrest, hprinted⟩

/-- Settles O44: the run passes the stretch of accepted buffers, and its next step faults. -/
theorem faultIsTerminal : Obligations.FaultIsTerminal := by
  unfold Obligations.FaultIsTerminal
  intro s done rest B c k hp hdone hf hk
  obtain ⟨j, rfl⟩ := Nat.exists_eq_add_of_lt hk
  obtain ⟨t, hrun, hrest, -⟩ := run_passes (j + 1) hp hdone
  exact hrun.trans (run_succ_of_step_eq_fault j ((step_eq_fault_iff_frontEnd hrest).mpr hf))

/-- The host's run goes on past a buffer that delivers a pair, with its line added (R95). -/
theorem hostRun_cons_ok {B : List Byte} {dst src : Register} (printed : List String) (rest : List (List Byte))
    (hf : frontEnd B = .ok dst src) :
    hostRun printed (B :: rest) = hostRun (printed ++ [render dst src]) rest := by
  simp [hostRun, hf]

/-- The two ways the host's run can end: normally, with a line for every buffer; or aborted by the first buffer that
delivers no pair (R109). -/
theorem hostRun_cases (printed : List String) (Bs : List (List Byte)) :
    ((∀ B ∈ Bs, Delivers B) ∧ hostRun printed Bs = .normal (printed ++ Bs.filterMap lineOf)) ∨
    (∃ done B rest c, Bs = done ++ B :: rest ∧ (∀ D ∈ done, Delivers D) ∧ frontEnd B = .fault c ∧
      hostRun printed Bs = .aborted c (printed ++ done.filterMap lineOf)) := by
  induction Bs generalizing printed with
  | nil => exact .inl ⟨by simp, by simp [hostRun]⟩
  | cons B Bs ih =>
    cases hf : frontEnd B with
    | fault c =>
      exact .inr ⟨[], B, Bs, c, rfl, by simp, hf, by simpa using hostRun_cons_fault printed Bs hf⟩
    | ok dst src =>
      rw [hostRun_cons_ok printed Bs hf]
      obtain ⟨hall, hrun⟩ | ⟨done, B', rest, c, rfl, hdone, hf', hrun⟩ := ih (printed ++ [render dst src])
      · refine .inl ⟨List.forall_mem_cons.mpr ⟨⟨dst, src, hf⟩, hall⟩, ?_⟩
        rw [hrun, filterMap_lineOf_cons Bs hf, List.append_assoc, List.singleton_append]
      · refine .inr ⟨B :: done, B', rest, c, rfl, List.forall_mem_cons.mpr ⟨⟨dst, src, hf⟩, hdone⟩, hf', ?_⟩
        rw [hrun, filterMap_lineOf_cons done hf, List.append_assoc, List.singleton_append]

/-- Settles O41: where the host's run ends normally every buffer delivers a pair, and where it is aborted the machine's
run passes the same stretch and faults at the same buffer. -/
theorem runIsTheHostRun : Obligations.RunIsTheHostRun := by
  unfold Obligations.RunIsTheHostRun
  intro s k hk
  obtain ⟨hall, hhost⟩ | ⟨done, B, rest, c, hp, hdone, hf, hhost⟩ := hostRun_cases s.printed s.pending
  · rw [hhost]
    refine ⟨?_, ?_⟩
    · rintro _ ⟨⟩
      exact run_of_forall_delivers hk hall
    · rintro _ _ ⟨⟩
  · rw [hhost]
    refine ⟨?_, ?_⟩
    · rintro _ ⟨⟩
    · rintro _ _ ⟨⟩
      have hlt : done.length < k := by
        rw [hp, List.length_append, List.length_cons] at hk
        omega
      exact faultIsTerminal s done rest B c k hp hdone hf hlt

/-- A run ends normally exactly when every pending buffer delivers a pair: otherwise it stops at the first that does
not. -/
theorem endsNormally_iff_forall_delivers {s : State} : s.EndsNormally ↔ ∀ B ∈ s.pending, Delivers B := by
  constructor
  · rintro ⟨t, hrun, -⟩
    obtain ⟨hall, -⟩ | ⟨_, _, _, c, -, -, -, hhost⟩ := hostRun_cases s.printed s.pending
    · exact hall
    · cases hrun.symm.trans ((runIsTheHostRun s s.pending.length le_rfl).2 c _ hhost)
  · intro hall
    obtain ⟨t, hrun, hrest, -⟩ := run_of_forall_delivers le_rfl hall
    exact ⟨t, hrun, hrest⟩

/-- Settles O42: a buffer delivers a pair exactly when it ends in an accepted encoding. -/
theorem runEndsNormallyExactlyWhenEveryBufferIsAccepted :
    Obligations.RunEndsNormallyExactlyWhenEveryBufferIsAccepted := by
  unfold Obligations.RunEndsNormallyExactlyWhenEveryBufferIsAccepted
  exact fun s => endsNormally_iff_forall_delivers.trans (forall₂_congr fun _ _ => delivers_iff)

/-- Settles O43: every buffer of either run delivers a pair, and each run prints the lines of its own buffers behind the
same text. -/
theorem reorderedBuffersPrintTheSameLines : Obligations.ReorderedBuffersPrintTheSameLines := by
  unfold Obligations.ReorderedBuffersPrintTheSameLines
  intro s s' hends hperm hprinted
  have hall := endsNormally_iff_forall_delivers.mp hends
  have hall' : ∀ B ∈ s'.pending, Delivers B := fun B hB => hall B (hperm.mem_iff.mpr hB)
  obtain ⟨t, hrun, -, ht⟩ := run_of_forall_delivers le_rfl hall
  obtain ⟨t', hrun', -, ht'⟩ := run_of_forall_delivers le_rfl hall'
  refine ⟨endsNormally_iff_forall_delivers.mpr hall', t, t', hrun, hrun', ?_⟩
  rw [ht, ht', hprinted]
  exact (hperm.symm.filterMap lineOf).append_left s.printed

/-- Two steps on the same buffer fault alike, or deliver its decode behind their own text and before their own pending
buffers (R48). -/
theorem step_agree_of_pending {s s' : State} {B : List Byte} {rest rest' : List (List Byte)}
    (hp : s.pending = B :: rest) (hp' : s'.pending = B :: rest') :
    (∃ f, step s = .fault f ∧ step s' = .fault f) ∨
    (∃ t t' line, step s = .next t ∧ step s' = .next t' ∧ t.pending = rest ∧ t'.pending = rest' ∧
      t.ports = t'.ports ∧ t.outputs = t'.outputs ∧ t.printed = s.printed ++ [line] ∧
      t'.printed = s'.printed ++ [line]) := by
  cases hf : frontEnd B with
  | fault c =>
    exact .inl ⟨faultOf c, (step_eq_fault_iff_frontEnd hp).mpr hf, (step_eq_fault_iff_frontEnd hp').mpr hf⟩
  | ok dst src =>
    obtain ⟨b0, b1, hw, hd⟩ := frontEnd_eq_ok_iff.mp hf
    exact .inr ⟨_, _, render dst src, step_of_decodeInstruction_eq_ok hp hw hd,
      step_of_decodeInstruction_eq_ok hp' hw hd, rfl, rfl, rfl, rfl, rfl, rfl⟩

/-- Two runs over the same buffers fault alike or add the same lines (R48). -/
theorem run_agree_of_pending (k : Nat) {s s' : State} (hp : s.pending = s'.pending) :
    (∃ f, Host.Core.run core k s = .fault f ∧ Host.Core.run core k s' = .fault f) ∨
    (∃ (t t' : State) (lines : List String), Host.Core.run core k s = .next t ∧ Host.Core.run core k s' = .next t' ∧
      t.pending = t'.pending ∧ t.printed = s.printed ++ lines ∧ t'.printed = s'.printed ++ lines) := by
  induction k generalizing s s' with
  | zero => exact .inr ⟨s, s', [], rfl, rfl, hp, by simp, by simp⟩
  | succ k ih =>
    cases hq : s.pending with
    | nil => exact .inr ⟨s, s', [], run_idle _ hq, run_idle _ (hp.symm.trans hq), hp, by simp, by simp⟩
    | cons B rest =>
      obtain ⟨f, hs, hs'⟩ | ⟨u, u', line, hs, hs', hu, hu', -, -, hprinted, hprinted'⟩ :=
        step_agree_of_pending hq (hp.symm.trans hq)
      · exact .inl ⟨f, run_succ_of_step_eq_fault k hs, run_succ_of_step_eq_fault k hs'⟩
      · rw [run_succ_of_step_eq_next k hs, run_succ_of_step_eq_next k hs']
        obtain hfault | ⟨t, t', lines, hrun, hrun', hpend, ht, ht'⟩ := ih (hu.trans hu'.symm)
        · exact .inl hfault
        · exact .inr ⟨t, t', line :: lines, hrun, hrun', hpend, by simp [ht, hprinted], by simp [ht', hprinted']⟩

/-- Settles O38: steps on one buffer agree, and runs over the same buffers agree step by step. -/
theorem decodesAreIndependent : Obligations.DecodesAreIndependent := by
  unfold Obligations.DecodesAreIndependent
  refine ⟨fun s s' B rest rest' hp hp' => ?_, fun k s s' hp => run_agree_of_pending k hp⟩
  obtain hfault | ⟨t, t', line, hs, hs', -, -, hrest⟩ := step_agree_of_pending hp hp'
  · exact .inl hfault
  · exact .inr ⟨t, t', line, hs, hs', hrest⟩

end Sys2Proof.Machine
end
